-- ==== Sys2Proof/Word.lean ====
section
/-! DEFINITION. The bit-vector types of the scratch-rs CORE: what spec/00_scope.md R5 and R7 treat as bits. -/

namespace Sys2Proof

/-- An instruction word: 16 bits, unsigned, bit 15 the most significant (R5, R46). -/
abbrev Word := BitVec 16

/-- A stack value: 32 bits, read as a signed two's-complement integer where the spec reads it as a number (R5, R104). -/
abbrev Value := BitVec 32

/-- The 4-bit opcode tag, bits 15:12 of a word (R45). -/
abbrev Tag := BitVec 4

/-- The 12-bit payload, bits 11:0 of a word (R45). -/
abbrev Payload := BitVec 12

end Sys2Proof
end

