-- ==== Sys2Proof/Syntax.lean ====
section
/-! DEFINITION. The instruction values (spec/40_codec.md R61), the table's ninth row, and the three fault kinds
(spec/60_exceptions.md R125). -/

namespace Sys2Proof

/-- One constructor per row of spec/opcode_table.json. The first eight are the instruction values of R61, "a tagged variant
over exactly eight cases"; a payload is 12 bits by its type, so one above 4095 cannot be written down (R61). The ninth stands
for the table's row INVALID (tags 8..15): it is no instruction of the closed set, only the name of what the engine does with
such a word (R51), and `decode` never answers with it. -/
inductive Instr where
  /-- `PushConst(v)`, tag 0 (R95). -/
  | pushConst (v : Payload)
  /-- `Pop`, tag 1 (R96). -/
  | pop
  /-- `Add`, tag 2 (R100). -/
  | add
  /-- `Sub`, tag 3 (R101). -/
  | sub
  /-- `Mul`, tag 4 (R102). -/
  | mul
  /-- `JumpIfZero(t)`, tag 5 (R110). -/
  | jumpIfZero (t : Payload)
  /-- `Print`, tag 6 (R120). -/
  | print
  /-- `Halt`, tag 7 (R112). -/
  | halt
  /-- The row INVALID: a word whose tag is `tag`, 8..15 (R51). -/
  | invalid (tag : Tag)
deriving DecidableEq, Repr

/-- The "Three fatal-to-the-run error kinds" (R125). -/
inductive FaultKind where
  /-- `InvalidOpcode` with the offending tag `w[15:12]`: raised by `decode` (R60, R126). -/
  | invalidOpcode (tag : Tag)
  /-- `StackOverflow`: raised by `push` on a full stack (R70, R127). -/
  | stackOverflow
  /-- `StackUnderflow`: raised by `pop` and `peek` on an empty stack (R71, R72, R128). -/
  | stackUnderflow
deriving DecidableEq, Repr

end Sys2Proof
end

