-- ==== Sys2Proof/WellFormed.lean ====
section
/-! DEFINITION. Which terms of `Instr` and `FaultKind` the spec has. -/

namespace Sys2Proof

/-- Whether a term is one of the eight instruction values of R61. -/
def Instr.isVariant : Instr → Bool
  | .pushConst _ => true
  | .pop => true
  | .add => true
  | .sub => true
  | .mul => true
  | .jumpIfZero _ => true
  | .print => true
  | .halt => true
  | .invalid _ => false

/-- An invalid tag is one of 8..15, that is one whose top bit (bit 15 of the word) is 1 (R51). -/
def Tag.isInvalid (tag : Tag) : Bool := decide (8 ≤ tag.toNat)

/-- A term some word stands for: the eight variants are so by their types, and the row INVALID holds tags 8..15 only (R51). -/
def Instr.wellFormed : Instr → Bool
  | .invalid tag => Tag.isInvalid tag
  | _ => true

/-- The legal values of a fault status: `InvalidOpcode(8..15)`, `StackOverflow`, `StackUnderflow` (R24). -/
def FaultKind.legal : FaultKind → Bool
  | .invalidOpcode tag => Tag.isInvalid tag
  | .stackOverflow => true
  | .stackUnderflow => true

end Sys2Proof
end

