-- ==== Sys2Proof/Decode.lean ====
section
/-! DEFINITION. The instruction codec (spec/30_encoding.md, spec/40_codec.md): `decode`, total on words and rejecting by
name, and after it `encode`. -/

namespace Sys2Proof

/-- The tag `w[15:12]` (R45). -/
def tagOf (w : Word) : Tag := w.extractLsb' 12 4

/-- The payload `w[11:0]` (R45). -/
def payloadOf (w : Word) : Payload := w.extractLsb' 0 12

/-- The word `{tag, payload} = tag * 4096 + payload` (R7, R45). -/
def wordOf (tag : Tag) (payload : Payload) : Word := tag ++ payload

/-- `decode` (R60, R49, R50, R51): one of the eight instruction values, or the fault `InvalidOpcode` with the tag. -/
def decode (w : Word) : Except FaultKind Instr :=
  match (tagOf w).toNat with
  | 0 => .ok (.pushConst (payloadOf w))
  | 1 => .ok .pop
  | 2 => .ok .add
  | 3 => .ok .sub
  | 4 => .ok .mul
  | 5 => .ok (.jumpIfZero (payloadOf w))
  | 6 => .ok .print
  | 7 => .ok .halt
  | _ => .error (.invalidOpcode (tagOf w))

/-- The opcode-table row a word belongs to, the row INVALID among them (spec/opcode_table.json; R49 "the map is complete"). -/
def decodeRow (w : Word) : Instr :=
  match decode w with
  | .ok i => i
  | .error _ => .invalid (tagOf w)

/-- The instruction the decoder reads from `nbits` bits numbered as spec/opcode_table.json numbers them. The machine has one
format, one 16-bit word (R45), and no byte order (R34), so the word is the number. -/
def decodeTableWord (nbits w : Nat) : Option Instr :=
  some (decodeRow (BitVec.ofNat 16 (w % 2 ^ nbits)))

/-- `encode` (R63): the tag in the top 4 bits, the payload (0 for a payload-less variant) in the low 12. The row INVALID is no
instruction value and has no canonical word, so `encode` gives it none. -/
def encode : Instr → Option Word
  | .pushConst v => some (wordOf 0#4 v)
  | .pop => some (wordOf 1#4 0#12)
  | .add => some (wordOf 2#4 0#12)
  | .sub => some (wordOf 3#4 0#12)
  | .mul => some (wordOf 4#4 0#12)
  | .jumpIfZero t => some (wordOf 5#4 t)
  | .print => some (wordOf 6#4 0#12)
  | .halt => some (wordOf 7#4 0#12)
  | .invalid _ => none

/-- The encoder's input truncation: a payload offered as a wider number is "silently truncated, never rejected", before the
instruction value exists (R54, R64; spec/90_conflicts.md C2). -/
def truncatePayload (n : Nat) : Payload := BitVec.ofNat 12 n

/-- A word is canonical when it decodes and re-encodes to itself (R66). -/
def isCanonical (w : Word) : Bool :=
  match decode w with
  | .ok i => encode i == some w
  | .error _ => false

end Sys2Proof
end

