-- ==== Sys2Proof/Config.lean ====
section
/-! DEFINITION. What the hardware fixes (spec/00_scope.md R5, R6) and the free values of the one thing the source calls
undefined, the engine after a fault (spec/93_implementation_defined.md U1). -/

namespace Sys2Proof

/-- WORD_WIDTH (R5). -/
def Config.wordWidth : Nat := 16
/-- TAG_WIDTH (R5). -/
def Config.tagWidth : Nat := 4
/-- PAYLOAD_WIDTH (R5). -/
def Config.payloadWidth : Nat := 12
/-- NUM_VARIANTS (R5). -/
def Config.numVariants : Nat := 8
/-- NUM_PAYLOAD_VARIANTS: the table's two, not the prose's three (R5; spec/90_conflicts.md C1). -/
def Config.numPayloadVariants : Nat := 2
/-- VALUE_WIDTH (R5). -/
def Config.valueWidth : Nat := 32
/-- STACK_CAPACITY: "Capacity is a hard ceiling" (R5, R18, R76). -/
def Config.stackCapacity : Nat := 256
/-- ENC_IN_WIDTH, which no result depends on (R6, R64; decision D5). -/
def Config.encInWidth : Nat := 16

/-- The constraint on PC_WIDTH under which a finite register holds every value `pc` takes (R6, R13). -/
abbrev Config.pcWidthSuffices (width len : Nat) : Prop := max len 4095 < 2 ^ width

/-- FREE VALUE (log entry 4): `pc` of an engine after a faulted step, "undefined for resumption purposes" (R131, U1).
An unknown function of the fault and of all the engine held when it was raised. -/
opaque Config.pcAfterFault (k : FaultKind) (program : List Word) (pc : Nat) (stack out : List Value) : Nat

/-- FREE VALUE (log entry 4): the value stack of an engine after a faulted step (R131, U1). -/
opaque Config.stackAfterFault (k : FaultKind) (program : List Word) (pc : Nat) (stack out : List Value) : List Value

end Sys2Proof
end

