-- ==== Sys2Proof/Machine/State.lean ====
section
/-! DEFINITION. The architectural state (spec/10_state.md R11), the reasons a step can stop, and the state after reset. -/

namespace Sys2Proof.Machine

/-- The value stack, bottom first: `S[0]` is the bottom, the last element the top (R18). The cursor `sp` is the list's length,
and slots at or above it are no state (R20). -/
abbrev ValueStack := List Value

/-- The state of the CORE: the five elements of R11, and the program the engine was constructed with, fixed for a run (R6, R30). -/
structure State where
  /-- `P`, the words supplied at construction; `LEN` is its length (R30). Not state in the spec but a parameter of the step: log entry 1. -/
  program : List Word
  /-- The index of the next word to fetch: an unbounded natural number (R12). -/
  pc : Nat
  /-- The one flag: false is Running, true is Halted (R15, R16). -/
  halted : Bool
  /-- The value stack `S` (R18). -/
  stack : ValueStack
  /-- The output channel: the values emitted so far, oldest first (R22). -/
  out : List Value
  /-- The fault status (R23). -/
  fault : Option FaultKind
deriving DecidableEq, Repr

/-- What a step that ends in a fault reports: the kind (R125) and the engine it leaves, which has its `fault` status set
(R23, R89) and `out` as it was (R121), and whose `pc` and stack are free values (R131, U1). A faulted engine is handed to the
host, never to a next step: the machine stops. All three are the spec's own faults, so stopping is exact. -/
inductive Fault where
  /-- Raised by a step that fetches a word with tag 8..15, through the arm `invalid` (R126). Safe: the spec gives no successor (R131). -/
  | invalidOpcode (tag : Tag) (engine : State)
  /-- Raised by `push` on a full stack, inside `PushConst` (R127). Safe: the spec gives no successor (R131). -/
  | stackOverflow (engine : State)
  /-- Raised by `pop` on an empty stack, inside `Pop`, `Add`, `Sub`, `Mul`, `JumpIfZero`, `Print` (R128). Safe: the spec gives no successor (R131). -/
  | stackUnderflow (engine : State)
deriving DecidableEq, Repr

/-- Why a step has no meaning. -/
inductive Refusal where
  /-- An instruction without a meaning, raised by `exec`'s arm for it. No arm raises it: every row has its meaning. Safe. -/
  | notModelled (mnemonic : String)
  /-- `step()` invoked on an engine whose fault status is set: "from a state with `fault != None` the machine has no
  transition" (R90; U7 `refuse`). Raised by `step` only. Safe. -/
  | engineFaulted
deriving DecidableEq, Repr

/-- What a step or a meaning answers. -/
abbrev Result := Host.Outcome State Fault Refusal

/-- The engine right after construction (R27, R145) from the empty program (log entry 1): `pc` 0, Running, an empty stack, no output,
no fault. -/
def State.reset : State where
  program := []
  pc := 0
  halted := false
  stack := []
  out := []
  fault := none

end Sys2Proof.Machine
end

