-- ==== Sys2Proof/Machine/Ops.lean ====
section
/-! DEFINITION. The named operations: the value stack's own (spec/41_value_stack.md), the engine's reads and writes of its
state (spec/00_scope.md R8), and raising a fault (spec/60_exceptions.md R131, R132). -/

namespace Sys2Proof.Machine

/-! ### The updates of the state -/

/-- `pc <- target` (R8). -/
def setPc (target : Nat) (s : State) : State := { s with pc := target }

/-- `halted <- true` (R8): no rule writes false. -/
def setHalted (s : State) : State := { s with halted := true }

/-- The engine with the value stack `S`. -/
def setStack (S : ValueStack) (s : State) : State := { s with stack := S }

/-- `emit(v)`: `out <- out ++ [v]` (R8, R121). -/
def emit (v : Value) (s : State) : State := { s with out := s.out ++ [v] }

/-- The advance: `pc <- pc + 1`, with no wrap-around (R85, R12). -/
def advance (s : State) : State := setPc (s.pc + 1) s

/-! ### Program memory -/

/-- `LEN` (R6). -/
def progLen (s : State) : Nat := s.program.length

/-- `MemRead(pc, 1) = P[pc]`, one whole word; none exactly at `pc >= LEN`, where no fetch is attempted (R31, R83). -/
def fetch (s : State) : Option Word := s.program[s.pc]?

/-! ### The value stack -/

/-- `is_empty()` (R73). -/
def isEmpty (S : ValueStack) : Bool := S.length == 0

/-- `is_full()` (R73). -/
def isFull (S : ValueStack) : Bool := S.length == Config.stackCapacity

/-- `push(v)` (R70). -/
def push (v : Value) (S : ValueStack) : Except FaultKind ValueStack :=
  if isFull S then .error .stackOverflow else .ok (S ++ [v])

/-- `pop()` (R71): the removed top and the stack below it. -/
def pop (S : ValueStack) : Except FaultKind (Value × ValueStack) :=
  match S.getLast? with
  | none => .error .stackUnderflow
  | some v => .ok (v, S.dropLast)

/-- `peek()` (R72). -/
def peek (S : ValueStack) : Except FaultKind Value :=
  match S.getLast? with
  | none => .error .stackUnderflow
  | some v => .ok v

/-! ### Raising a fault -/

/-- The engine a fault leaves: the kind latched in `fault`, `halted` not set (R89), `out` and the program kept (R121, R131), and
`pc` and the stack free values (R131, U1), the stack within its capacity (R18). -/
def latchFault (k : FaultKind) (s : State) : State :=
  { s with
    fault := some k
    pc := Config.pcAfterFault k s.program s.pc s.stack s.out
    stack := (Config.stackAfterFault k s.program s.pc s.stack s.out).take Config.stackCapacity }

/-- The stop reason of a fault kind. -/
def faultReason (k : FaultKind) (engine : State) : Fault :=
  match k with
  | .invalidOpcode tag => .invalidOpcode tag engine
  | .stackOverflow => .stackOverflow engine
  | .stackUnderflow => .stackUnderflow engine

/-- `raise K(info)`: the step ends at once with outcome `Fault(K, info)` (R8, R89). There is no handler, vector, saved `pc` or
mode change: this is the whole of fault entry (R132). -/
def raise (k : FaultKind) (s : State) : Result := .fault (faultReason k (latchFault k s))

/-! ### Stack operations inside an instruction -/

/-- Perform `push(v)` and end the instruction. -/
def pushValue (v : Value) (s : State) : Result :=
  match push v s.stack with
  | .ok S => .next (setStack S s)
  | .error k => raise k s

/-- Perform `pop()` and go on with the popped value in the engine that has it removed. -/
def popThen (s : State) (k : Value → State → Result) : Result :=
  match pop s.stack with
  | .ok (v, S) => k v (setStack S s)
  | .error e => raise e s

end Sys2Proof.Machine
end

