-- ==== Sys2Proof/Machine/Operands.lean ====
section
/-! DEFINITION. Every operand form: the two payload operands (spec/30_encoding.md R47, R48) and the operands taken from the
stack (spec/41_value_stack.md R77). -/

namespace Sys2Proof.Machine

/-- `PushConst`'s immediate: the payload as an unsigned number widened to 32 bits; bit 11 is no sign (R47). -/
def immediate (v : Payload) : Value := v.setWidth 32

/-- `JumpIfZero`'s target: the payload as an absolute, unscaled word index (R48). -/
def jumpTarget (t : Payload) : Nat := t.toNat

/-- The two operands of `Add`, `Sub` and `Mul`: `a` is popped first (the top), `b` second (spec/44_arithmetic.md). -/
def popTwoThen (s : State) (k : Value → Value → State → Result) : Result :=
  popThen s fun a s₁ => popThen s₁ fun b s₂ => k a b s₂

end Sys2Proof.Machine
end

