-- ==== Sys2Proof/Machine/Arith.lean ====
section
/-! DEFINITION. `Add`, `Sub`, `Mul` and the arithmetic unit (spec/44_arithmetic.md). -/

namespace Sys2Proof.Machine

/-- `wrap32(z)`: the signed 32-bit value congruent to `z` modulo 2^32 (R7, R103). -/
def wrap32 (z : Int) : Value := BitVec.ofInt 32 z

/-- The operation select of the arithmetic unit, derived from the tags 2, 3, 4 (R107). -/
inductive AluOp where
  | add
  | sub
  | mul
deriving DecidableEq, Repr

/-- The exact result on the mathematical values `A` of the first-popped and `B` of the second-popped operand (R105). -/
def aluExact (op : AluOp) (A B : Int) : Int :=
  match op with
  | .add => A + B
  | .sub => B - A
  | .mul => A * B

/-- The arithmetic unit: two values in, one value out, no state and no status outputs (R107). Every result wraps (R103). -/
def alu (op : AluOp) (a b : Value) : Value := wrap32 (aluExact op a.toInt b.toInt)

/-- The shape of `Add`, `Sub` and `Mul`: pop `a`, pop `b`, push the result (R100, R101, R102). -/
def arith (op : AluOp) (s : State) : Result := popTwoThen s fun a b s' => pushValue (alu op a b) s'

/-- `Add`: push `a + b` (R100). -/
def execAdd (s : State) : Result := arith .add s

/-- `Sub`: push `b - a`, second-popped minus first-popped (R101). -/
def execSub (s : State) : Result := arith .sub s

/-- `Mul`: push `a * b` (R102). -/
def execMul (s : State) : Result := arith .mul s

end Sys2Proof.Machine
end

