-- ==== Sys2Proof/Machine/Flags.lean ====
section
/-! DEFINITION. The status the machine has: the `halted` flag, its only flag (spec/10_state.md R15, R17), the condition of
`JumpIfZero`, and the codes of the fault status. -/

namespace Sys2Proof.Machine

/-- The Running state (R16), which the host can read (R91). -/
def isRunning (s : State) : Bool := !s.halted

/-- The condition of `JumpIfZero`: "the 32-bit value 0 exactly" (R110). -/
def isZero (v : Value) : Bool := v == 0#32

/-- The signal `fault_kind`: 0 none, 1 `InvalidOpcode`, 2 `StackOverflow`, 3 `StackUnderflow` (R92, R125; decision D10). -/
def faultKindCode : Option FaultKind → BitVec 2
  | none => 0
  | some (.invalidOpcode _) => 1
  | some .stackOverflow => 2
  | some .stackUnderflow => 3

/-- The signal `fault_tag`, "meaningful only when `fault_kind = 1`" (R92); none where it carries no meaning. -/
def faultTagCode : Option FaultKind → Option Tag
  | some (.invalidOpcode tag) => some tag
  | _ => none

end Sys2Proof.Machine
end

