-- ==== Sys2Proof/Machine/Control.lean ====
section
/-! DEFINITION. `JumpIfZero` and `Halt` (spec/45_control.md). -/

namespace Sys2Proof.Machine

/-- `JumpIfZero(t)`: pop one value; if it is zero continue at word index `t`, with no bounds check; else keep the advanced
`pc` (R110). -/
def execJumpIfZero (t : Payload) (s : State) : Result :=
  popThen s fun v s' => .next (if isZero v then setPc (jumpTarget t) s' else s')

/-- `Halt`: `halted <- true`; the stack is not touched (R112). -/
def execHalt (s : State) : Result := .next (setHalted s)

end Sys2Proof.Machine
end

