-- ==== Sys2Proof/Machine/Invalid.lean ====
section
/-! DEFINITION. The opcode table's row INVALID (spec/30_encoding.md R51, spec/60_exceptions.md R126). -/

namespace Sys2Proof.Machine

/-- A fetched word with tag 8..15: the step ends with `InvalidOpcode` and the tag, before `pc` is advanced and before any stack
operation (R84, R126). -/
def execInvalid (tag : Tag) (s : State) : Result := raise (.invalidOpcode tag) s

end Sys2Proof.Machine
end

