-- ==== Sys2Proof/Machine/Output.lean ====
section
/-! DEFINITION. `Print`, the output channel and its text (spec/46_output.md). -/

namespace Sys2Proof.Machine

/-- `Print`: pop one value and emit it (R120). -/
def execPrint (s : State) : Result := popThen s fun v s' => .next (emit v s')

/-- The ASCII digit of a number below 10. -/
def digitChar (d : Nat) : Char := Char.ofNat (48 + d)

/-- The base-10 digits of `n`, most significant first, in front of `acc`; `fuel` bounds how many. -/
def digitsOnto : Nat → Nat → List Char → List Char
  | 0, _, acc => acc
  | fuel + 1, n, acc =>
    if n < 10 then digitChar n :: acc else digitsOnto fuel (n / 10) (digitChar (n % 10) :: acc)

/-- The decimal digits of a number below 10^10, without leading zeros, `0` being the single digit `0` (R122). -/
def decimalDigits (n : Nat) : List Char := digitsOnto 10 n []

/-- `dec(v)`: the decimal text of one value, a minus sign before the digits of the magnitude of a negative one (R122; the sign
and the character set are decision D12, log entry 6). -/
def decText (v : Value) : List Char :=
  if v.toInt < 0 then '-' :: decimalDigits v.toInt.natAbs else decimalDigits v.toInt.natAbs

/-- `text(out)`: the plain concatenation, with no separator (R123). -/
def textOf (out : List Value) : List Char := out.flatMap decText

end Sys2Proof.Machine
end

