-- ==== Sys2Proof/Machine/StackInstr.lean ====
section
/-! DEFINITION. `PushConst` and `Pop` (spec/43_stack_instructions.md). A meaning is the execute part of a step: `pc` has
already been advanced (R80, R85). -/

namespace Sys2Proof.Machine

/-- `PushConst(v)`: push the widened payload (R95). -/
def execPushConst (v : Payload) (s : State) : Result := pushValue (immediate v) s

/-- `Pop`: pop and discard (R96). -/
def execPop (s : State) : Result := popThen s fun _ s' => .next s'

end Sys2Proof.Machine
end

