-- ==== Sys2Proof/Machine/Dispatch.lean ====
section
/-! DEFINITION. `execute(i)` (spec/42_engine.md R94): one arm per row of the opcode table, "no ninth case and no default arm" among
the instructions; the arm `invalid` is the fault a step takes in their place. -/

namespace Sys2Proof.Machine

def exec (i : Instr) (s : State) : Host.Outcome State Fault Refusal :=
  match i with
  | .pushConst v => Sys2Proof.Machine.execPushConst v s
  | .pop => Sys2Proof.Machine.execPop s
  | .add => Sys2Proof.Machine.execAdd s
  | .sub => Sys2Proof.Machine.execSub s
  | .mul => Sys2Proof.Machine.execMul s
  | .jumpIfZero t => Sys2Proof.Machine.execJumpIfZero t s
  | .print => Sys2Proof.Machine.execPrint s
  | .halt => Sys2Proof.Machine.execHalt s
  | .invalid tag => Sys2Proof.Machine.execInvalid tag s

end Sys2Proof.Machine
end

