-- ==== Sys2Proof/Machine/Engine.lean ====
section
/-! DEFINITION. The fetch-decode-execute sequence of one step (spec/42_engine.md R80 to R90). -/

namespace Sys2Proof.Machine

/-- DECODE, ADVANCE, EXECUTE on the fetched word: the advance comes after a successful decode and before execute (R84, R85, R94);
an invalid word faults in the engine as it was fetched. -/
def runWord (w : Word) (s : State) : Result :=
  match decode w with
  | .ok i => exec i (advance s)
  | .error _ => exec (.invalid (tagOf w)) s

/-- `step()` where the precondition `fault == None` holds: CHECK (halted, then end of program), FETCH, and the rest (R80 to R83). -/
def runStep (s : State) : Result :=
  if s.halted then .next s
  else
    match fetch s with
    | none => .next (setHalted s)
    | some w => runWord w s

/-- `step()` on any state: a faulted engine has no transition (R90). -/
def engineStep (s : State) : Result :=
  match s.fault with
  | some _ => .refused .engineFaulted
  | none => runStep s

/-- The program `P` with word `w` at index `k`, made long enough to hold it. -/
def placeWord (P : List Word) (k : Nat) (w : Word) : List Word :=
  P.take k ++ List.replicate (k - P.length) 0 ++ w :: P.drop (k + 1)

end Sys2Proof.Machine
end

