-- ==== Sys2Proof/Machine/Step.lean ====
section
/-! DEFINITION. The machine's only transition (spec/42_engine.md R80), and the placing of a word where it fetches. -/

namespace Sys2Proof.Machine

/-- `step()` (R80). -/
def step (s : State) : Host.Outcome State Fault Refusal := engineStep s

/-- `s` made to fetch the instruction word `w` at its next step: the word stands at index `pc` of the program, and the engine is
Running and not faulted, without which a step fetches nothing (R81, R90). It stands for the host's construction of an engine with
such a program (log entry 1). -/
def State.withFetchWord (s : State) (nbits w : Nat) : State :=
  { s with
    program := placeWord s.program s.pc (BitVec.ofNat 16 (w % 2 ^ nbits))
    halted := false
    fault := none }

end Sys2Proof.Machine
end

