-- ==== Sys2Proof/Machine/Listing.lean ====
section
/-! DEFINITION. The listing notation of programs (spec/30_encoding.md R53 to R57): its items, the words they stand for, and how a
word is printed. -/

namespace Sys2Proof.Machine

/-- One instruction of a listing (R53). A payload is any number, kept modulo 4096 (R54); `Push` is `PushConst` (R55). -/
inductive ListingItem where
  | pushConst (n : Nat)
  | push (n : Nat)
  | jumpIfZero (n : Nat)
  | pop
  | add
  | sub
  | mul
  | print
  | halt
deriving DecidableEq, Repr

/-- The instruction value an item stands for, its payload truncated (R54, R55). -/
def itemInstr : ListingItem → Instr
  | .pushConst n => .pushConst (truncatePayload n)
  | .push n => .pushConst (truncatePayload n)
  | .jumpIfZero n => .jumpIfZero (truncatePayload n)
  | .pop => .pop
  | .add => .add
  | .sub => .sub
  | .mul => .mul
  | .print => .print
  | .halt => .halt

/-- The words of a listing, index 0 first: "repeated calls to the codec's `encode`" (R53). -/
def assemble (l : List ListingItem) : List Word := l.filterMap fun it => encode (itemInstr it)

/-- A mnemonic with its payload in parentheses (R57). -/
def withPayload (name : List Char) (p : Payload) : List Char := name ++ '(' :: decimalDigits p.toNat ++ [')']

/-- One hexadecimal digit. -/
def hexDigit (d : Nat) : Char := if d < 10 then digitChar d else Char.ofNat (55 + d)

/-- A word as four hexadecimal digits (R7). -/
def hexWord (w : Word) : List Char :=
  [hexDigit (w.toNat / 4096), hexDigit (w.toNat / 256 % 16), hexDigit (w.toNat / 16 % 16), hexDigit (w.toNat % 16)]

/-- A word printed: a valid one by its mnemonic (R55, R57), an invalid one as its hex value. -/
def disassemble (w : Word) : List Char :=
  match decode w with
  | .ok (.pushConst v) => withPayload ['P', 'u', 's', 'h', 'C', 'o', 'n', 's', 't'] v
  | .ok .pop => ['P', 'o', 'p']
  | .ok .add => ['A', 'd', 'd']
  | .ok .sub => ['S', 'u', 'b']
  | .ok .mul => ['M', 'u', 'l']
  | .ok (.jumpIfZero t) => withPayload ['J', 'u', 'm', 'p', 'I', 'f', 'Z', 'e', 'r', 'o'] t
  | .ok .print => ['P', 'r', 'i', 'n', 't']
  | .ok .halt => ['H', 'a', 'l', 't']
  | .ok (.invalid _) => '0' :: 'x' :: hexWord w
  | .error _ => '0' :: 'x' :: hexWord w

end Sys2Proof.Machine
end

