-- ==== Sys2Proof/Machine/Ports.lean ====
section
/-! DEFINITION. The port-level view of the blocks (spec/40_codec.md R62, R69; spec/41_value_stack.md R78; spec/42_engine.md R92;
spec/46_output.md R124). The signals name arguments and results of the functions and add no behaviour (decision D8). A signal
that carries no meaning in a situation is `none` there (spec/93_implementation_defined.md U4). -/

namespace Sys2Proof.Machine

/-! ### The codec -/

/-- The 15 bits of an instruction value: the variant index and the payload, zero for a payload-less variant (R62). -/
structure VariantBits where
  /-- `var[2:0]`, equal to the tag. -/
  var : BitVec 3
  /-- `pl[11:0]`. -/
  pl : Payload
deriving DecidableEq, Repr

/-- The hardware representation of an instruction value (R62); the row INVALID has none. -/
def variantBits : Instr → Option VariantBits
  | .pushConst v => some ⟨0#3, v⟩
  | .pop => some ⟨1#3, 0#12⟩
  | .add => some ⟨2#3, 0#12⟩
  | .sub => some ⟨3#3, 0#12⟩
  | .mul => some ⟨4#3, 0#12⟩
  | .jumpIfZero t => some ⟨5#3, t⟩
  | .print => some ⟨6#3, 0#12⟩
  | .halt => some ⟨7#3, 0#12⟩
  | .invalid _ => none

/-- The decoder's outputs (R69). -/
structure DecoderPorts where
  /-- `dec_tag = w[15:12]`, always driven. -/
  decTag : Tag
  /-- `dec_valid`: 1 when `w[15] = 0`. -/
  decValid : Bool
  /-- `dec_var = w[14:12]`, meaningful only when `dec_valid = 1`. -/
  decVar : Option (BitVec 3)
  /-- `dec_pl`, meaningful only when `dec_valid = 1`. -/
  decPl : Option Payload
deriving DecidableEq, Repr

/-- A variant index that carries a payload: 0 or 5 (R49, R62). -/
def carriesPayload (var : BitVec 3) : Bool := var == 0#3 || var == 5#3

/-- The decoder as a combinational block: a field split and a test of bit 15 (R68, R69). -/
def decoderPorts (w : Word) : DecoderPorts :=
  let var : BitVec 3 := w.extractLsb' 12 3
  let valid := !w.getLsbD 15
  { decTag := tagOf w
    decValid := valid
    decVar := if valid then some var else none
    decPl := if valid then some (if carriesPayload var then payloadOf w else 0#12) else none }

/-- The encoder's output `word_out`, for an offered payload of any width (R69, R64). -/
def encoderPort {n : Nat} (encVar : BitVec 3) (encPlIn : BitVec n) : Word :=
  wordOf (0#1 ++ encVar) (if carriesPayload encVar then encPlIn.setWidth 12 else 0#12)

/-! ### The value stack -/

/-- One request to the stack; at most one is active per operation (R78). -/
inductive StackRequest where
  | idle
  | push (data : Value)
  | pop
  | peek
deriving DecidableEq, Repr

/-- The stack's outputs (R78). -/
structure StackPorts where
  /-- `top_data`: `stack_mem[sp-1]` when `sp > 0`, undefined when `sp = 0`. -/
  topData : Option Value
  /-- `is_empty`. -/
  isEmpty : Bool
  /-- `is_full`. -/
  isFull : Bool
  /-- `overflow`: the `StackOverflow` detector. -/
  overflow : Bool
  /-- `underflow`: the `StackUnderflow` detector. -/
  underflow : Bool
deriving DecidableEq, Repr

/-- The stack's outputs for a request (R78). -/
def stackPorts (req : StackRequest) (S : ValueStack) : StackPorts where
  topData := S.getLast?
  isEmpty := isEmpty S
  isFull := isFull S
  overflow := match req with
    | .push _ => isFull S
    | _ => false
  underflow := match req with
    | .pop => isEmpty S
    | .peek => isEmpty S
    | _ => false

/-- The stack after a request: "every operation either fully succeeds or leaves the stack byte-for-byte unchanged" (R74). -/
def stackAfter (req : StackRequest) (S : ValueStack) : ValueStack :=
  match req with
  | .idle => S
  | .push v =>
    match push v S with
    | .ok S' => S'
    | .error _ => S
  | .pop =>
    match pop S with
    | .ok (_, S') => S'
    | .error _ => S
  | .peek => S

/-! ### The engine -/

/-- The engine's outputs between steps (R92), with counters of `width` bits for the open parameter PC_WIDTH (R6). -/
structure EnginePorts (width : Nat) where
  /-- `prog_len`. -/
  progLen : BitVec width
  /-- `prog_addr`. -/
  progAddr : BitVec width
  /-- `halted`. -/
  halted : Bool
  /-- `fault_kind`. -/
  faultKind : BitVec 2
  /-- `fault_tag`. -/
  faultTag : Option Tag
  /-- `top_data`. -/
  topData : Option Value
  /-- `is_empty`. -/
  isEmpty : Bool
  /-- `is_full`. -/
  isFull : Bool
deriving DecidableEq, Repr

/-- The engine's outputs between steps (R92). -/
def enginePorts (width : Nat) (s : State) : EnginePorts width where
  progLen := BitVec.ofNat width (progLen s)
  progAddr := BitVec.ofNat width s.pc
  halted := s.halted
  faultKind := faultKindCode s.fault
  faultTag := faultTagCode s.fault
  topData := s.stack.getLast?
  isEmpty := isEmpty s.stack
  isFull := isFull s.stack

/-- `out_valid` and `out_data` of the step taken in `s`: the value a `Print` emits in it, or none (R92, R124). -/
def outPort (s : State) : Option Value :=
  match step s with
  | .next t => if s.out.length < t.out.length then t.out.getLast? else none
  | _ => none

end Sys2Proof.Machine
end

