-- ==== Sys2Proof/Machine/Driver.lean ====
section
/-! DEFINITION. Construction, the driver `run()` and what the host reads (spec/42_engine.md R86, R91; spec/70_reset_and_hazards.md
R145, R150). -/

namespace Sys2Proof.Machine

/-- Construction, the only reset: the engine built from the program `P` (R91, R145). -/
def construct (P : List Word) : State := { State.reset with program := P }

/-- How `run()` ends, or that a fuelled execution of it has not ended (R86, R87). -/
inductive RunResult where
  /-- `Ok`, with `halted = true`. -/
  | halted (s : State)
  /-- `Fault(K, info)`: never a successful end (R149). -/
  | fault (f : Fault)
  /-- The host invoked `run()` on a faulted engine, which R150 forbids. -/
  | refused (r : Refusal)
  /-- The fuel is used up and the engine is still Running: no outcome of the hardware, which has no budget (R87; decision D16). -/
  | outOfFuel (s : State)
deriving DecidableEq, Repr

/-- `run()` under fuel: repeat `step()` while not halted (R86). -/
def run : Nat → State → RunResult
  | 0, s => if s.halted then .halted s else .outOfFuel s
  | fuel + 1, s =>
    if s.halted then .halted s
    else
      match step s with
      | .next t => run fuel t
      | .fault f => .fault f
      | .refused r => .refused r

/-- The host's `peek()` between steps: on an empty stack it returns `StackUnderflow` to the host for that query and does not touch
the engine's fault status (R72, R150; decision D15). -/
def hostPeek (s : State) : Except FaultKind Value := peek s.stack

/-- What the host gets of a fault: the kind, with the tag of an `InvalidOpcode`, and the output emitted so far (R131). -/
def faultReport : Fault → FaultKind × List Value
  | .invalidOpcode tag e => (.invalidOpcode tag, e.out)
  | .stackOverflow e => (.stackOverflow, e.out)
  | .stackUnderflow e => (.stackUnderflow, e.out)

/-- The engine a fault leaves. -/
def faultedEngine : Fault → State
  | .invalidOpcode _ e => e
  | .stackOverflow e => e
  | .stackUnderflow e => e

end Sys2Proof.Machine
end

