-- ==== Sys2Proof/Safety.lean ====
section
/-! DEFINITION. What a safe run is, in the terms statements use: the machine's invariant, the states a run reaches, and the
conditions under which a step raises no fault (spec/70_reset_and_hazards.md R148, R149). -/

namespace Sys2Proof.Machine

/-- The invariant of a running engine: `0 <= sp <= 256` (R18, R75), `pc <= max(LEN, 4095)` (R13), and no fault (a faulted engine is
never a next state, R90). -/
structure EngineInv (s : State) : Prop where
  stack_le : s.stack.length ≤ 256
  pc_le : s.pc ≤ max s.program.length 4095
  no_fault : s.fault = none

/-- The states of the run of an engine constructed from `P` (R145, R80). -/
inductive Reachable (P : List Word) : State → Prop where
  | construct : Reachable P (construct P)
  | step {s t : State} : Reachable P s → step s = .next t → Reachable P t

/-- The stack depth on entry with which an instruction raises no fault (R77, R129); the row INVALID always faults. -/
def depthOk : Instr → Nat → Bool
  | .pushConst _, sp => decide (sp ≤ 255)
  | .pop, sp => decide (1 ≤ sp)
  | .add, sp => decide (2 ≤ sp)
  | .sub, sp => decide (2 ≤ sp)
  | .mul, sp => decide (2 ≤ sp)
  | .jumpIfZero _, sp => decide (1 ≤ sp)
  | .print, sp => decide (1 ≤ sp)
  | .halt, _ => true
  | .invalid _, _ => false

/-- How many entries an instruction pops (R77). -/
def popCount : Instr → Nat
  | .pushConst _ => 0
  | .pop => 1
  | .add => 2
  | .sub => 2
  | .mul => 2
  | .jumpIfZero _ => 1
  | .print => 1
  | .halt => 0
  | .invalid _ => 0

/-- How many entries an instruction pushes (R77). -/
def pushCount : Instr → Nat
  | .pushConst _ => 1
  | .pop => 0
  | .add => 1
  | .sub => 1
  | .mul => 1
  | .jumpIfZero _ => 0
  | .print => 0
  | .halt => 0
  | .invalid _ => 0

/-- `r` is `wrap32(z)` as R7 defines it: the value in `INT_MIN .. INT_MAX` congruent to `z` modulo 2^32. -/
def IsWrap32 (z : Int) (r : Value) : Prop :=
  -2147483648 ≤ r.toInt ∧ r.toInt ≤ 2147483647 ∧ (4294967296 : Int) ∣ z - r.toInt

/-- Push the values of a list in order, stopping at the first fault (R70). -/
def pushAll : List Value → ValueStack → Except FaultKind ValueStack
  | [], S => .ok S
  | v :: vs, S =>
    match push v S with
    | .ok S' => pushAll vs S'
    | .error k => .error k

/-- Pop `n` values, the first popped first, stopping at the first fault (R71). -/
def popMany : Nat → ValueStack → Except FaultKind (List Value × ValueStack)
  | 0, S => .ok ([], S)
  | n + 1, S =>
    match pop S with
    | .error k => .error k
    | .ok (v, S') =>
      match popMany n S' with
      | .ok (vs, T) => .ok (v :: vs, T)
      | .error k => .error k

/-- The number a list of decimal digit characters writes, most significant first. -/
def digitsValue (ds : List Char) : Nat := ds.foldl (fun n c => 10 * n + (c.toNat - 48)) 0

/-- The number a list of hexadecimal digit characters writes, most significant first, the letters being capitals. -/
def hexValue (hs : List Char) : Nat := hs.foldl (fun n c => 16 * n + if c ≤ '9' then c.toNat - 48 else c.toNat - 55) 0

/-- The obligations of R148 for the next step of an engine that has not faulted: a step that fetches nothing raises nothing (R129). -/
def stepSafe (s : State) : Bool :=
  s.halted ||
    match fetch s with
    | none => true
    | some w => depthOk (decodeRow w) s.stack.length

/-- `n` steps, each answering a next state: the caller's own loop of `step()` calls (R86, R143). -/
def StepsTo : Nat → State → State → Prop
  | 0, s, t => s = t
  | n + 1, s, t => ∃ u, step s = .next u ∧ StepsTo n u t

end Sys2Proof.Machine
end

