-- ==== Sys2Proof/Certificates/Slice0/Obligations.lean ====
section
/-! DEFINITION. The statements for the provers. Each docstring names the rule of spec/ it formalises, or says that the statement is
derived and from what. -/

open Sys2Proof Sys2Proof.Machine

/-! ### The instructions: encoding, result with frame, faults -/

/-- R95, with R47: every word of tag 0 is `PushConst` of its payload; with a free slot it pushes the payload's number, which is never
negative, and changes nothing else; on a full stack it faults. -/
def Obligations.PushConstPushesPayload : Prop :=
  ∀ p : Payload,
    decode (0#4 ++ p) = .ok (.pushConst p) ∧
    (∀ s : State, s.stack.length ≤ 255 →
      ∃ v : Value, v.toInt = p.toNat ∧ exec (.pushConst p) s = .next { s with stack := s.stack ++ [v] }) ∧
    (∀ s : State, s.stack.length = 256 → ∃ e, exec (.pushConst p) s = .fault (.stackOverflow e))

/-- R96: every word of tag 1 is `Pop`; it drops the top and changes nothing else; on an empty stack it faults. -/
def Obligations.PopDropsTop : Prop :=
  (∀ p : Payload, decode (1#4 ++ p) = .ok .pop) ∧
  (∀ (s : State) (S : ValueStack) (v : Value), s.stack = S ++ [v] → exec .pop s = .next { s with stack := S }) ∧
  (∀ s : State, s.stack = [] → ∃ e, exec .pop s = .fault (.stackUnderflow e))

/-- R100: every word of tag 2 is `Add`; it replaces `b, a` by `wrap32(a + b)` and changes nothing else; with fewer than two entries it
faults. The bound on the stack is R18's. -/
def Obligations.AddPushesWrappedSum : Prop :=
  (∀ p : Payload, decode (2#4 ++ p) = .ok .add) ∧
  (∀ (s : State) (S : ValueStack) (b a : Value), s.stack = S ++ [b, a] → s.stack.length ≤ 256 →
    ∃ r : Value, IsWrap32 (a.toInt + b.toInt) r ∧ exec .add s = .next { s with stack := S ++ [r] }) ∧
  (∀ s : State, s.stack.length ≤ 1 → ∃ e, exec .add s = .fault (.stackUnderflow e))

/-- R101: every word of tag 3 is `Sub`; it replaces `b, a` by `wrap32(b - a)`, second-popped minus first-popped, and changes nothing
else; with fewer than two entries it faults. -/
def Obligations.SubPushesWrappedDifference : Prop :=
  (∀ p : Payload, decode (3#4 ++ p) = .ok .sub) ∧
  (∀ (s : State) (S : ValueStack) (b a : Value), s.stack = S ++ [b, a] → s.stack.length ≤ 256 →
    ∃ r : Value, IsWrap32 (b.toInt - a.toInt) r ∧ exec .sub s = .next { s with stack := S ++ [r] }) ∧
  (∀ s : State, s.stack.length ≤ 1 → ∃ e, exec .sub s = .fault (.stackUnderflow e))

/-- R102: every word of tag 4 is `Mul`; it replaces `b, a` by `wrap32(a * b)` and changes nothing else; with fewer than two entries it
faults. -/
def Obligations.MulPushesWrappedProduct : Prop :=
  (∀ p : Payload, decode (4#4 ++ p) = .ok .mul) ∧
  (∀ (s : State) (S : ValueStack) (b a : Value), s.stack = S ++ [b, a] → s.stack.length ≤ 256 →
    ∃ r : Value, IsWrap32 (a.toInt * b.toInt) r ∧ exec .mul s = .next { s with stack := S ++ [r] }) ∧
  (∀ s : State, s.stack.length ≤ 1 → ∃ e, exec .mul s = .fault (.stackUnderflow e))

/-- R110: every word of tag 5 is `JumpIfZero` of its payload; it pops one value whether or not it jumps, continues at the absolute index
`t` exactly when the value is 0, with no bounds check, and changes nothing else; on an empty stack it faults. -/
def Obligations.JumpIfZeroPopsAndBranches : Prop :=
  ∀ t : Payload,
    decode (5#4 ++ t) = .ok (.jumpIfZero t) ∧
    (∀ (s : State) (S : ValueStack) (v : Value), s.stack = S ++ [v] →
      exec (.jumpIfZero t) s = .next { s with stack := S, pc := if v = 0#32 then t.toNat else s.pc }) ∧
    (∀ s : State, s.stack = [] → ∃ e, exec (.jumpIfZero t) s = .fault (.stackUnderflow e))

/-- R120: every word of tag 6 is `Print`; it pops one value, appends it to the output channel and changes nothing else; on an empty
stack it faults and nothing is emitted. -/
def Obligations.PrintPopsAndEmits : Prop :=
  (∀ p : Payload, decode (6#4 ++ p) = .ok .print) ∧
  (∀ (s : State) (S : ValueStack) (v : Value), s.stack = S ++ [v] →
    exec .print s = .next { s with stack := S, out := s.out ++ [v] }) ∧
  (∀ s : State, s.stack = [] → ∃ e, exec .print s = .fault (.stackUnderflow e) ∧ e.out = s.out)

/-- R112: every word of tag 7 is `Halt`; in every state it sets the halted flag and changes nothing else, so after a step `pc` is one
past it. -/
def Obligations.HaltSetsHalted : Prop :=
  (∀ p : Payload, decode (7#4 ++ p) = .ok .halt) ∧
  (∀ s : State, exec .halt s = .next { s with halted := true }) ∧
  (∀ (s : State) (w : Word), s.fault = none → s.halted = false → s.program[s.pc]? = some w → w.toNat / 4096 = 7 →
    step s = .next { s with pc := s.pc + 1, halted := true })

/-- R51: a word from 0x8000 on, and no other, is refused by `decode` with its tag `w[15:12]`, and no other word ends a step with that
fault: a step that fetches a word ends with `InvalidOpcode` exactly if the word is one of these, and carries its tag. -/
def Obligations.InvalidWordsFault : Prop :=
  (∀ w : Word, 0x8000 ≤ w.toNat ↔ ∃ tag, decode w = .error (.invalidOpcode tag)) ∧
  (∀ (w : Word) (tag : Tag), decode w = .error (.invalidOpcode tag) → tag.toNat = w.toNat / 4096) ∧
  (∀ (s : State) (w : Word), s.fault = none → s.halted = false → s.program[s.pc]? = some w →
    (0x8000 ≤ w.toNat ↔ ∃ tag e, step s = .fault (.invalidOpcode tag e)) ∧
    (∀ tag e, step s = .fault (.invalidOpcode tag e) → tag.toNat = w.toNat / 4096))

/-- Derived from R51 and R126. That the table's row INVALID is a constructor of its own, with an arm of `exec`, is the model's choice
(log entry 7): whatever tag the term carries and whatever the engine holds, the arm stops with `InvalidOpcode` of that tag, the kind
latched (decision D3) and nothing emitted. -/
def Obligations.InvalidRowAlwaysFaults : Prop :=
  ∀ (tag : Tag) (s : State), ∃ e,
    exec (.invalid tag) s = .fault (.invalidOpcode tag e) ∧ e.fault = some (.invalidOpcode tag) ∧ e.out = s.out

/-! ### Arithmetic -/

/-- Derived from R104 (a fact of arithmetic modulo 2^32, G2): the three instructions are the same function of bit patterns whether the
patterns are read as signed or as unsigned. -/
def Obligations.ArithmeticIsSignAgnostic : Prop :=
  ∀ (s : State) (S : ValueStack) (b a : Value), s.stack = S ++ [b, a] → s.stack.length ≤ 256 →
    exec .add s = .next { s with stack := S ++ [BitVec.ofNat 32 (a.toNat + b.toNat)] } ∧
    exec .sub s = .next { s with stack := S ++ [BitVec.ofNat 32 (b.toNat + (4294967296 - a.toNat))] } ∧
    exec .mul s = .next { s with stack := S ++ [BitVec.ofNat 32 (a.toNat * b.toNat)] }

/-! ### Frames -/

/-- Derived from the effects of R94's table and R17, R22, R33, R41: an instruction that completes leaves program memory, read word by
word, and the fault status alone; only `Halt` sets the flag, only `Print` writes the output, only `JumpIfZero` writes `pc`. -/
def Obligations.InstructionFrame : Prop :=
  ∀ (i : Instr) (s t : State), exec i s = .next t →
    (∀ k : Nat, t.program[k]? = s.program[k]?) ∧ t.program.length = s.program.length ∧ t.fault = s.fault ∧
    (i ≠ .halt → t.halted = s.halted) ∧
    (i ≠ .print → t.out = s.out) ∧
    ((∀ g, i ≠ .jumpIfZero g) → t.pc = s.pc)

/-- Derived from R77's table and R43: a completing instruction changes the depth by its pushes less its pops, and every entry below its
operands stays where it was. -/
def Obligations.InstructionStackFrame : Prop :=
  ∀ (i : Instr) (s t : State), exec i s = .next t →
    popCount i ≤ s.stack.length ∧
    t.stack.length + popCount i = s.stack.length + pushCount i ∧
    ∀ k, k + popCount i < s.stack.length → t.stack[k]? = s.stack[k]?

/-! ### Faults -/

/-- R127: `StackOverflow` arises exactly when `PushConst` executes on a full stack. -/
def Obligations.OverflowOnlyFromPushConst : Prop :=
  ∀ (i : Instr) (s : State), s.stack.length ≤ 256 →
    ((∃ e, exec i s = .fault (.stackOverflow e)) ↔ (∃ v, i = .pushConst v) ∧ s.stack.length = 256)

/-- R128: `StackUnderflow` arises exactly at the only pop of `Pop`, `JumpIfZero`, `Print` on an empty stack, and at the first or second
pop of `Add`, `Sub`, `Mul` with no or one entry. -/
def Obligations.UnderflowExactly : Prop :=
  ∀ (i : Instr) (s : State), s.stack.length ≤ 256 →
    ((∃ e, exec i s = .fault (.stackUnderflow e)) ↔
      ((i = .pop ∨ (∃ t, i = .jumpIfZero t) ∨ i = .print) ∧ s.stack.length = 0) ∨
      ((i = .add ∨ i = .sub ∨ i = .mul) ∧ s.stack.length ≤ 1))

/-- R126: a step raises `InvalidOpcode` exactly when the engine is Running before the end of the program and the fetched word has bit 15
set, and what it records is the tag. -/
def Obligations.InvalidOpcodeExactly : Prop :=
  ∀ (s : State) (tag : Tag), s.fault = none →
    ((∃ e, step s = .fault (.invalidOpcode tag e)) ↔
      s.halted = false ∧ ∃ w, s.program[s.pc]? = some w ∧ w.getLsbD 15 = true ∧ tag = w.extractLsb' 12 4)

/-- Derived from R23, R89, R90 and R131, which are the spec's decisions D3 and D14 (log entry 5): the engine a faulting step leaves has
the kind in its fault status, a legal one, and its output as before the step, and no step leads on from it. -/
def Obligations.FaultingStepLatchesAndStops : Prop :=
  ∀ (s : State) (f : Fault), step s = .fault f →
    (faultedEngine f).fault = some (faultReport f).1 ∧
    (faultReport f).1.legal = true ∧
    (faultReport f).2 = s.out ∧
    (faultedEngine f).program = s.program ∧
    step (faultedEngine f) = .refused .engineFaulted

/-- Derived from R77, R129, R130 and R148: for an engine that has not faulted and whose stack is within its capacity, a step answers a next
state exactly when the depth the fetched instruction needs is there; otherwise it faults, and it is never refused. -/
def Obligations.StepCompletesExactlyWhenSafe : Prop :=
  ∀ s : State, s.fault = none → s.stack.length ≤ 256 →
    ((∃ t, step s = .next t) ↔ stepSafe s = true) ∧ ((∃ f, step s = .fault f) ↔ stepSafe s = false)

/-! ### The step -/

/-- R80, R81, R82, R84, R85: the one transition. Halted: nothing changes. End of program: `halted` is set and nothing else changes. A word
that decodes: exactly its instruction runs, in the engine whose `pc` has been advanced. A word that does not: the fault of its tag. -/
def Obligations.StepRunsTheDecodedInstruction : Prop :=
  ∀ s : State, s.fault = none →
    (s.halted = true → step s = .next s) ∧
    (s.halted = false → s.program.length ≤ s.pc → step s = .next { s with halted := true }) ∧
    (∀ (w : Word) (i : Instr), s.halted = false → s.program[s.pc]? = some w → decode w = .ok i →
      step s = exec i { s with pc := s.pc + 1 }) ∧
    (∀ (w : Word) (tag : Tag), s.halted = false → s.program[s.pc]? = some w → decode w = .error (.invalidOpcode tag) →
      ∃ e, step s = .fault (.invalidOpcode tag e))

/-- Derived from R90, the spec's decisions D3 and D14: a faulted engine has no transition, and `run()` with
any fuel above 0 does not run it. -/
def Obligations.FaultedEngineHasNoTransition : Prop :=
  ∀ (s : State) (k : FaultKind), s.fault = some k →
    step s = .refused .engineFaulted ∧
    ∀ n, s.halted = false → run (n + 1) s = .refused .engineFaulted

/-- Derived from R14's table: `pc` after a step that completes. -/
def Obligations.ProgramCounterAfterStep : Prop :=
  ∀ s t : State, step s = .next t →
    (s.halted = true → t.pc = s.pc) ∧
    (s.program.length ≤ s.pc → t.pc = s.pc) ∧
    (∀ w, s.halted = false → s.program[s.pc]? = some w →
      t.pc = if w.toNat / 4096 = 5 ∧ s.stack.getLast? = some 0#32 then w.toNat % 4096 else s.pc + 1)

/-- R15: `halted` is initially false, is never cleared by a step, and is set by exactly two events, a step at the end of the program and
the execution of a `Halt`; a set flag is read by every step, which then does nothing, by `run()`, and by the host. -/
def Obligations.HaltedSetByExactlyTwoEvents : Prop :=
  (∀ P : List Word, (construct P).halted = false) ∧
  (∀ s t : State, step s = .next t →
    (t.halted = true ↔
      s.halted = true ∨ s.program.length ≤ s.pc ∨ ∃ w, s.program[s.pc]? = some w ∧ w.toNat / 4096 = 7)) ∧
  (∀ s : State, s.halted = true → s.fault = none → step s = .next s ∧ ∀ n, run n s = .halted s) ∧
  (∀ (width : Nat) (s : State), (enginePorts width s).halted = s.halted)

/-- R121: a step appends to the output exactly when it executes a `Print`, and then the value it popped; it never changes an element
already emitted; a faulting step emits nothing; and nothing reads the output back into the machine: with any other values in front of
the output a step completes with the same next state, or faults with the same kind, or is refused for the same reason. -/
def Obligations.OutputIsAppendOnlyAndNeverRead : Prop :=
  (∀ s t : State, step s = .next t →
    (∀ w, s.halted = false → s.program[s.pc]? = some w → w.toNat / 4096 = 6 →
      ∃ S v, s.stack = S ++ [v] ∧ t.out = s.out ++ [v]) ∧
    ((s.halted = true ∨ ∀ w, s.program[s.pc]? = some w → w.toNat / 4096 ≠ 6) → t.out = s.out)) ∧
  (∀ (s : State) (f : Fault), step s = .fault f → (faultReport f).2 = s.out) ∧
  (∀ (s t : State) (o : List Value), step s = .next t →
    step { s with out := o ++ s.out } = .next { t with out := o ++ t.out }) ∧
  (∀ (s : State) (f : Fault) (o : List Value), step s = .fault f →
    ∃ g, step { s with out := o ++ s.out } = .fault g ∧ faultReport g = ((faultReport f).1, o ++ (faultReport f).2)) ∧
  (∀ (s : State) (r : Refusal) (o : List Value), step s = .refused r → step { s with out := o ++ s.out } = .refused r)

/-- Derived from R110 and R82 (and R136, "a normal halt, not an error"): a taken jump at or beyond the end of the program is performed,
and the next step halts with `pc` left at the target. -/
def Obligations.JumpBeyondEndHaltsCleanly : Prop :=
  ∀ (s : State) (w : Word) (S : ValueStack), s.fault = none → s.halted = false → s.program[s.pc]? = some w →
    w.toNat / 4096 = 5 → s.stack = S ++ [0#32] → s.program.length ≤ w.toNat % 4096 →
    ∃ t, step s = .next t ∧ t.halted = false ∧ t.pc = w.toNat % 4096 ∧ t.stack = S ∧ step t = .next { t with halted := true }

/-- Derived from R31 and R32: a step reads program memory at `pc` and nowhere else, so with a program that agrees there it completes with
the same next state but for the program, or faults with the same kind and output, or is refused for the same reason. -/
def Obligations.StepReadsOnlyTheFetchedWord : Prop :=
  ∀ (s : State) (P : List Word), P[s.pc]? = s.program[s.pc]? →
    (∀ t, step s = .next t → step { s with program := P } = .next { t with program := P }) ∧
    (∀ f, step s = .fault f → ∃ g, step { s with program := P } = .fault g ∧ faultReport g = faultReport f) ∧
    (∀ r, step s = .refused r → step { s with program := P } = .refused r)

/-! ### Reset and invariants -/

/-- Derived from R27, R91 and R145, whose `out` and `fault` values are the spec's decisions D9 and D3: construction from any program leaves
an empty stack, `pc` at 0, Running, no output and no fault, and keeps the program; and that engine meets the invariant. -/
def Obligations.ConstructionLeavesResetState : Prop :=
  ∀ P : List Word,
    (construct P).pc = 0 ∧ (construct P).halted = false ∧ (construct P).stack = [] ∧ (construct P).out = [] ∧
    (construct P).fault = none ∧ (construct P).program = P ∧ EngineInv (construct P) ∧ EngineInv State.reset

/-- Derived from R13, R18, R75 and R90: every step keeps the invariant of a running engine, the stack within 256 entries, `pc` at most
`max(LEN, 4095)`, and no fault in a next state. -/
def Obligations.EveryStepKeepsEngineInv : Prop :=
  ∀ s t : State, EngineInv s → step s = .next t → EngineInv t

/-- Derived from R13, R30, R41, R75 and R146: every state of every run of every program meets the invariant and still holds the program it
was constructed with; and its output only grows along the run. -/
def Obligations.ReachableStatesMeetInv : Prop :=
  ∀ (P : List Word) (s : State), Reachable P s →
    EngineInv s ∧ s.program = P ∧
    ∀ t, step s = .next t → (∃ o, t.out = s.out ++ o) ∧ (s.halted = true → t = s)

/-- Derived from R13 and R92 (PC_WIDTH is open, decision D1): under the constraint of R6 a counter register of that many bits holds `pc` and
`LEN` exactly. -/
def Obligations.FiniteProgramCounterIsExact : Prop :=
  ∀ (s : State) (width : Nat), EngineInv s → Config.pcWidthSuffices width s.program.length →
    (enginePorts width s).progAddr.toNat = s.pc ∧ (enginePorts width s).progLen.toNat = s.program.length

/-! ### The driver -/

/-- Derived from R86 (the fuel is decision D16): `run()` and the caller's own loop of `step()` calls agree. It ends Halted in `t` exactly
when some number of steps within the fuel leads to `t` with `halted` set, and it ends in a fault exactly when a step on the way raises it. -/
def Obligations.RunIsRepeatedStep : Prop :=
  ∀ (n : Nat) (s : State),
    (∀ t, run n s = .halted t ↔ t.halted = true ∧ ∃ k ≤ n, StepsTo k s t) ∧
    (∀ f, run n s = .fault f ↔ s.halted = false ∧ ∃ k < n, ∃ u, StepsTo k s u ∧ step u = .fault f)

/-! ### The codec -/

/-- R60 and R49: the opcode map, total on words. -/
def Obligations.DecodeFollowsTheOpcodeMap : Prop :=
  ∀ w : Word,
    (w.toNat / 4096 = 0 → decode w = .ok (.pushConst (BitVec.ofNat 12 (w.toNat % 4096)))) ∧
    (w.toNat / 4096 = 1 → decode w = .ok .pop) ∧
    (w.toNat / 4096 = 2 → decode w = .ok .add) ∧
    (w.toNat / 4096 = 3 → decode w = .ok .sub) ∧
    (w.toNat / 4096 = 4 → decode w = .ok .mul) ∧
    (w.toNat / 4096 = 5 → decode w = .ok (.jumpIfZero (BitVec.ofNat 12 (w.toNat % 4096)))) ∧
    (w.toNat / 4096 = 6 → decode w = .ok .print) ∧
    (w.toNat / 4096 = 7 → decode w = .ok .halt) ∧
    (8 ≤ w.toNat / 4096 → decode w = .error (.invalidOpcode (BitVec.ofNat 4 (w.toNat / 4096))))

/-- Words from the spec's vectors V1 (95_test_vectors.md): the payload is unsigned, ignored bits are ignored, the smallest and largest
invalid words fail with their tags. -/
def Obligations.SampleWordsDecode : Prop :=
  decode 0x0800 = .ok (.pushConst 2048) ∧ decode 0x1ABC = .ok .pop ∧ decode 0x2001 = .ok .add ∧ decode 0x3FFF = .ok .sub ∧
  decode 0x4000 = .ok .mul ∧ decode 0x5FA0 = .ok (.jumpIfZero 4000) ∧ decode 0x6123 = .ok .print ∧ decode 0x7FFF = .ok .halt ∧
  decode 0x8000 = .error (.invalidOpcode 8) ∧ decode 0xFFFF = .error (.invalidOpcode 15)

/-- R63: `encode` never fails on an instruction value, and its word is the tag times 4096 plus the payload. -/
def Obligations.EncodeFollowsTheOpcodeMap : Prop :=
  (∀ v : Payload, ∃ w : Word, encode (.pushConst v) = some w ∧ w.toNat = 0x0000 + v.toNat) ∧
  encode .pop = some 0x1000 ∧ encode .add = some 0x2000 ∧ encode .sub = some 0x3000 ∧ encode .mul = some 0x4000 ∧
  (∀ t : Payload, ∃ w : Word, encode (.jumpIfZero t) = some w ∧ w.toNat = 0x5000 + t.toNat) ∧
  encode .print = some 0x6000 ∧ encode .halt = some 0x7000 ∧
  (∀ (i : Instr) (w : Word), encode i = some w → w.getLsbD 15 = false ∧ isCanonical w = true)

/-- R65: for every instruction value, `decode(encode(i)) == i`, with every payload. -/
def Obligations.DecodeEncodeRoundTrip : Prop :=
  ∀ i : Instr, i.isVariant = true → ∃ w, encode i = some w ∧ decode w = .ok i

/-- Derived from R66's table: re-encoding a decoded word gives the word for tags 0 and 5, the word with its payload cleared for the other
valid tags; and R67: decoding it again gives the same instruction, and `encode` is injective. -/
def Obligations.ReencodingClearsIgnoredPayload : Prop :=
  (∀ (w w' : Word) (i : Instr), decode w = .ok i → encode i = some w' →
    decode w' = .ok i ∧
    (w.toNat / 4096 = 0 ∨ w.toNat / 4096 = 5 → w' = w) ∧
    (w.toNat / 4096 ≠ 0 ∧ w.toNat / 4096 ≠ 5 → w' = w &&& 0xF000#16)) ∧
  (∀ (i j : Instr) (w : Word), encode i = some w → encode j = some w → i = j)

/-- Derived from R52 and R66: the canonical words are the words of tags 0 and 5 and the six payload-less words with payload zero. -/
def Obligations.CanonicalWordsCharacterised : Prop :=
  ∀ w : Word, isCanonical w = true ↔
    w.toNat / 4096 = 0 ∨ w.toNat / 4096 = 5 ∨ (w.toNat < 0x8000 ∧ w.toNat % 4096 = 0)

/-- R54: a payload written wider than 12 bits is kept modulo 4096 and never rejected, so a listing has one word for each of its items. -/
def Obligations.WidePayloadsAreTruncated : Prop :=
  (∀ n : Nat, ∃ w : Word, assemble [.pushConst n] = [w] ∧ assemble [.push n] = [w] ∧ w.toNat = n % 4096) ∧
  (∀ n : Nat, ∃ w : Word, assemble [.jumpIfZero n] = [w] ∧ w.toNat = 0x5000 + n % 4096) ∧
  (∀ l : List ListingItem, (assemble l).length = l.length)

/-- Derived from R57 (and R55, R53): a valid word prints as its mnemonic, followed exactly for tags 0 and 5 by its payload in parentheses,
in decimal digits without leading zeros; so two valid words print the same exactly when they decode to the same instruction, and a
non-canonical word prints as its canonical form. An invalid word prints as its hex value, `0x` and four digits (R7; the digits' capitals are
the model's choice, log entry 14), so no two invalid words print the same. -/
def Obligations.DisassemblyPrintsMnemonicAndPayload : Prop :=
  (∀ w : Word,
    (w.toNat / 4096 = 0 → ∃ ds, disassemble w = ['P', 'u', 's', 'h', 'C', 'o', 'n', 's', 't', '('] ++ ds ++ [')'] ∧
      digitsValue ds = w.toNat % 4096 ∧ (∀ c ∈ ds, '0' ≤ c ∧ c ≤ '9') ∧ ds ≠ [] ∧ (ds.head? = some '0' → ds = ['0'])) ∧
    (w.toNat / 4096 = 1 → disassemble w = ['P', 'o', 'p']) ∧
    (w.toNat / 4096 = 2 → disassemble w = ['A', 'd', 'd']) ∧
    (w.toNat / 4096 = 3 → disassemble w = ['S', 'u', 'b']) ∧
    (w.toNat / 4096 = 4 → disassemble w = ['M', 'u', 'l']) ∧
    (w.toNat / 4096 = 5 → ∃ ds, disassemble w = ['J', 'u', 'm', 'p', 'I', 'f', 'Z', 'e', 'r', 'o', '('] ++ ds ++ [')'] ∧
      digitsValue ds = w.toNat % 4096 ∧ (∀ c ∈ ds, '0' ≤ c ∧ c ≤ '9') ∧ ds ≠ [] ∧ (ds.head? = some '0' → ds = ['0'])) ∧
    (w.toNat / 4096 = 6 → disassemble w = ['P', 'r', 'i', 'n', 't']) ∧
    (w.toNat / 4096 = 7 → disassemble w = ['H', 'a', 'l', 't']) ∧
    (0x8000 ≤ w.toNat → ∃ hs, disassemble w = ['0', 'x'] ++ hs ∧ hs.length = 4 ∧ hexValue hs = w.toNat ∧
      ∀ c ∈ hs, ('0' ≤ c ∧ c ≤ '9') ∨ ('A' ≤ c ∧ c ≤ 'F'))) ∧
  (∀ w w' : Word, w.toNat < 0x8000 → w'.toNat < 0x8000 → (disassemble w = disassemble w' ↔ decode w = decode w')) ∧
  (∀ (w w' : Word) (i : Instr), decode w = .ok i → encode i = some w' → disassemble w' = disassemble w) ∧
  (∀ w w' : Word, 0x8000 ≤ w.toNat → 0x8000 ≤ w'.toNat → (disassemble w = disassemble w' ↔ w = w'))

/-- Derived from R62, R64 and R69, the spec's decisions D5 and D8: the decoder's signals are the bits of the decoded instruction value and its
tag, and the encoder's output on a variant index is the canonical word, when the payload is offered in any width of at least 12, with
its low 12 bits asked to be the instruction's for the variant indices 0 and 5 only: the others ignore what is offered. -/
def Obligations.CodecPortsAgree : Prop :=
  (∀ w : Word, (decoderPorts w).decTag = w.extractLsb' 12 4 ∧
    ((decoderPorts w).decValid = true ↔ ∃ i, decode w = .ok i)) ∧
  (∀ (w : Word) (i : Instr), decode w = .ok i →
    ∃ b, variantBits i = some b ∧ (decoderPorts w).decVar = some b.var ∧ (decoderPorts w).decPl = some b.pl) ∧
  (∀ (i : Instr) (b : VariantBits) (n : Nat) (offered : BitVec n), variantBits i = some b →
    12 ≤ n → (b.var = 0#3 ∨ b.var = 5#3 → offered.setWidth 12 = b.pl) → encode i = some (encoderPort b.var offered))

/-! ### The value stack -/

/-- R70, R71, R72, R73: the five operations of the stack component; one that fails leaves the stack as it was (R74), and its detector is
the failure. -/
def Obligations.StackOperationsFollowTheirRules : Prop :=
  ∀ (S : ValueStack) (v : Value),
    (S.length = 256 → push v S = .error .stackOverflow ∧ stackAfter (.push v) S = S ∧ (stackPorts (.push v) S).overflow = true) ∧
    (S.length < 256 → push v S = .ok (S ++ [v]) ∧ stackAfter (.push v) S = S ++ [v] ∧ (stackPorts (.push v) S).overflow = false) ∧
    (S = [] → pop S = .error .stackUnderflow ∧ stackAfter .pop S = S ∧ (stackPorts .pop S).underflow = true ∧
      peek S = .error .stackUnderflow ∧ stackAfter .peek S = S ∧ (stackPorts .peek S).underflow = true) ∧
    (∀ T, S = T ++ [v] → pop S = .ok (v, T) ∧ stackAfter .pop S = T ∧ (stackPorts .pop S).underflow = false ∧
      peek S = .ok v ∧ stackAfter .peek S = S ∧ (stackPorts .peek S).underflow = false) ∧
    (isEmpty S = true ↔ S.length = 0) ∧ (isFull S = true ↔ S.length = 256)

/-- Derived from R75 (and R70, R71): values come out in the reverse of the order they went in, as long as they fit; the push that does not
fit fails. -/
def Obligations.StackIsLastInFirstOut : Prop :=
  (∀ (vs : List Value) (S : ValueStack), S.length + vs.length ≤ 256 →
    pushAll vs S = .ok (S ++ vs) ∧ popMany vs.length (S ++ vs) = .ok (vs.reverse, S)) ∧
  (∀ (vs : List Value) (S : ValueStack), S.length ≤ 256 → 256 < S.length + vs.length → pushAll vs S = .error .stackOverflow) ∧
  (∀ (n : Nat) (S : ValueStack), S.length < n → popMany n S = .error .stackUnderflow)

/-! ### Output -/

/-- Derived from R123 and R120: executing `Print` extends the text stream by the decimal text of the popped value, with no separator. -/
def Obligations.PrintExtendsTheText : Prop :=
  ∀ (s : State) (S : ValueStack) (v : Value), s.stack = S ++ [v] →
    ∃ t, exec .print s = .next t ∧ textOf t.out = textOf s.out ++ decText v

/-- Derived from R122, whose minus sign and character set are the spec's decision D12 (log entry 6): the text of a value is a minus sign exactly
if it is negative and then between one and ten decimal digits without leading zeros that read back as its magnitude. -/
def Obligations.DecimalTextReadsBack : Prop :=
  ∀ v : Value, ∃ ds : List Char,
    decText v = (if v.toInt < 0 then ['-'] else []) ++ ds ∧
    digitsValue ds = v.toInt.natAbs ∧
    (∀ c ∈ ds, '0' ≤ c ∧ c ≤ '9') ∧
    1 ≤ ds.length ∧ ds.length ≤ 10 ∧
    (ds.head? = some '0' → ds = ['0'])

/-- Derived from R124 and R92, the spec's decisions D4 and D8: the output port carries a value in a step exactly when the step executes a
`Print`, and it is the value popped. -/
def Obligations.OutPortCarriesPrintedValue : Prop :=
  ∀ (s : State) (v : Value), outPort s = some v ↔
    s.fault = none ∧ s.halted = false ∧ s.stack.getLast? = some v ∧
    ∃ w, s.program[s.pc]? = some w ∧ w.toNat / 4096 = 6

/-! ### The engine's status signals -/

/-- Derived from R92 and R125, the spec's decisions D8 and D10 (log entries 5 and 11): `fault_kind` is 0, 1, 2 or 3 exactly for no fault,
`InvalidOpcode`, `StackOverflow`, `StackUnderflow`; `fault_tag` carries the tag exactly while the kind is 1; `top_data` carries the top of
the stack exactly when there is one; `is_empty` and `is_full` are `sp = 0` and `sp = 256`. A step that faults leaves an engine that shows
the kind it reports, and an engine that completes a step shows no fault. -/
def Obligations.EnginePortsShowTheStatus : Prop :=
  ∀ width : Nat,
    (∀ s : State,
      ((enginePorts width s).faultKind = 0#2 ↔ s.fault = none) ∧
      ((enginePorts width s).faultKind = 1#2 ↔ ∃ tag, s.fault = some (.invalidOpcode tag)) ∧
      ((enginePorts width s).faultKind = 2#2 ↔ s.fault = some .stackOverflow) ∧
      ((enginePorts width s).faultKind = 3#2 ↔ s.fault = some .stackUnderflow) ∧
      (∀ tag, (enginePorts width s).faultTag = some tag ↔ s.fault = some (.invalidOpcode tag)) ∧
      (∀ v, (enginePorts width s).topData = some v ↔ ∃ S, s.stack = S ++ [v]) ∧
      ((enginePorts width s).topData = none ↔ (enginePorts width s).isEmpty = true) ∧
      ((enginePorts width s).isEmpty = true ↔ s.stack.length = 0) ∧
      ((enginePorts width s).isFull = true ↔ s.stack.length = 256)) ∧
    (∀ (s : State) (tag : Tag) (e : State), step s = .fault (.invalidOpcode tag e) →
      (enginePorts width e).faultKind = 1#2 ∧ (enginePorts width e).faultTag = some tag) ∧
    (∀ s e : State, step s = .fault (.stackOverflow e) → (enginePorts width e).faultKind = 2#2) ∧
    (∀ s e : State, step s = .fault (.stackUnderflow e) → (enginePorts width e).faultKind = 3#2) ∧
    (∀ s t : State, step s = .next t → (enginePorts width t).faultKind = 0#2)
end

