-- ==== Sys2Proof/Laws/Codec.lean ====
section
/-! SUPPORT. The codec's fields and the shape of its results. -/

namespace Sys2Proof

@[simp] theorem tagOf_wordOf (t : Tag) (p : Payload) : tagOf (wordOf t p) = t := by
  apply BitVec.eq_of_toNat_eq
  have ht := t.isLt
  have hp := p.isLt
  simp only [tagOf, wordOf, BitVec.extractLsb'_toNat, BitVec.toNat_append, Nat.shiftRight_eq_div_pow]
  rw [← Nat.shiftLeft_add_eq_or_of_lt hp, Nat.shiftLeft_eq]
  omega

@[simp] theorem payloadOf_wordOf (t : Tag) (p : Payload) : payloadOf (wordOf t p) = p := by
  apply BitVec.eq_of_toNat_eq
  have ht := t.isLt
  have hp := p.isLt
  simp only [payloadOf, wordOf, BitVec.extractLsb'_toNat, BitVec.toNat_append, Nat.shiftRight_eq_div_pow]
  rw [← Nat.shiftLeft_add_eq_or_of_lt hp, Nat.shiftLeft_eq]
  omega

/-- The word's number (R7, R45). -/
theorem wordOf_toNat (t : Tag) (p : Payload) : (wordOf t p).toNat = t.toNat * 4096 + p.toNat := by
  have hp := p.isLt
  simp only [wordOf, BitVec.toNat_append]
  rw [← Nat.shiftLeft_add_eq_or_of_lt hp, Nat.shiftLeft_eq]

theorem tagOf_toNat (w : Word) : (tagOf w).toNat = w.toNat / 4096 := by
  have hw := w.isLt
  simp only [tagOf, BitVec.extractLsb'_toNat, Nat.shiftRight_eq_div_pow]
  omega

theorem payloadOf_toNat (w : Word) : (payloadOf w).toNat = w.toNat % 4096 := by
  simp [payloadOf, BitVec.extractLsb'_toNat]

/-- A word is its tag and its payload. -/
@[simp] theorem wordOf_tagOf_payloadOf (w : Word) : wordOf (tagOf w) (payloadOf w) = w := by
  apply BitVec.eq_of_toNat_eq
  rw [wordOf_toNat, tagOf_toNat, payloadOf_toNat]
  omega

/-- Everything `decode` can do, by the tag. -/
theorem decode_cases (w : Word) :
    (tagOf w = 0#4 ∧ decode w = .ok (.pushConst (payloadOf w))) ∨ (tagOf w = 1#4 ∧ decode w = .ok .pop) ∨
    (tagOf w = 2#4 ∧ decode w = .ok .add) ∨ (tagOf w = 3#4 ∧ decode w = .ok .sub) ∨
    (tagOf w = 4#4 ∧ decode w = .ok .mul) ∨ (tagOf w = 5#4 ∧ decode w = .ok (.jumpIfZero (payloadOf w))) ∨
    (tagOf w = 6#4 ∧ decode w = .ok .print) ∨ (tagOf w = 7#4 ∧ decode w = .ok .halt) ∨
    (8 ≤ (tagOf w).toNat ∧ decode w = .error (.invalidOpcode (tagOf w))) := by
  have tags : ∀ t : Tag, t = 0#4 ∨ t = 1#4 ∨ t = 2#4 ∨ t = 3#4 ∨ t = 4#4 ∨ t = 5#4 ∨ t = 6#4 ∨ t = 7#4 ∨ 8 ≤ t.toNat := by decide
  rcases tags (tagOf w) with h | h | h | h | h | h | h | h | h
  all_goals try (simp [decode, h]; done)
  have invalid : decode w = .error (.invalidOpcode (tagOf w)) := by
    unfold decode
    split <;> first | omega | rfl
  simp [h, invalid]

/-- What `decode` answers is one of the eight instruction values, never the row INVALID. -/
theorem isVariant_of_decode {w : Word} {i : Instr} (h : decode w = .ok i) : i.isVariant = true := by
  rcases decode_cases w with ⟨-, e⟩ | ⟨-, e⟩ | ⟨-, e⟩ | ⟨-, e⟩ | ⟨-, e⟩ | ⟨-, e⟩ | ⟨-, e⟩ | ⟨-, e⟩ | ⟨-, e⟩ <;>
    rw [e] at h <;> cases h <;> rfl

end Sys2Proof
end

