-- ==== Sys2Proof/Laws/State.lean ====
section
/-! SUPPORT. Every field after every update of the state. -/

namespace Sys2Proof.Machine

/-! ### setPc -/

@[simp] theorem setPc_program (n : Nat) (s : State) : (setPc n s).program = s.program := rfl
@[simp] theorem setPc_pc (n : Nat) (s : State) : (setPc n s).pc = n := rfl
@[simp] theorem setPc_halted (n : Nat) (s : State) : (setPc n s).halted = s.halted := rfl
@[simp] theorem setPc_stack (n : Nat) (s : State) : (setPc n s).stack = s.stack := rfl
@[simp] theorem setPc_out (n : Nat) (s : State) : (setPc n s).out = s.out := rfl
@[simp] theorem setPc_fault (n : Nat) (s : State) : (setPc n s).fault = s.fault := rfl

/-! ### setHalted -/

@[simp] theorem setHalted_program (s : State) : (setHalted s).program = s.program := rfl
@[simp] theorem setHalted_pc (s : State) : (setHalted s).pc = s.pc := rfl
@[simp] theorem setHalted_halted (s : State) : (setHalted s).halted = true := rfl
@[simp] theorem setHalted_stack (s : State) : (setHalted s).stack = s.stack := rfl
@[simp] theorem setHalted_out (s : State) : (setHalted s).out = s.out := rfl
@[simp] theorem setHalted_fault (s : State) : (setHalted s).fault = s.fault := rfl

/-! ### setStack -/

@[simp] theorem setStack_program (S : ValueStack) (s : State) : (setStack S s).program = s.program := rfl
@[simp] theorem setStack_pc (S : ValueStack) (s : State) : (setStack S s).pc = s.pc := rfl
@[simp] theorem setStack_halted (S : ValueStack) (s : State) : (setStack S s).halted = s.halted := rfl
@[simp] theorem setStack_stack (S : ValueStack) (s : State) : (setStack S s).stack = S := rfl
@[simp] theorem setStack_out (S : ValueStack) (s : State) : (setStack S s).out = s.out := rfl
@[simp] theorem setStack_fault (S : ValueStack) (s : State) : (setStack S s).fault = s.fault := rfl

/-! ### emit -/

@[simp] theorem emit_program (v : Value) (s : State) : (emit v s).program = s.program := rfl
@[simp] theorem emit_pc (v : Value) (s : State) : (emit v s).pc = s.pc := rfl
@[simp] theorem emit_halted (v : Value) (s : State) : (emit v s).halted = s.halted := rfl
@[simp] theorem emit_stack (v : Value) (s : State) : (emit v s).stack = s.stack := rfl
@[simp] theorem emit_out (v : Value) (s : State) : (emit v s).out = s.out ++ [v] := rfl
@[simp] theorem emit_fault (v : Value) (s : State) : (emit v s).fault = s.fault := rfl

/-! ### advance -/

@[simp] theorem advance_program (s : State) : (advance s).program = s.program := rfl
@[simp] theorem advance_pc (s : State) : (advance s).pc = s.pc + 1 := rfl
@[simp] theorem advance_halted (s : State) : (advance s).halted = s.halted := rfl
@[simp] theorem advance_stack (s : State) : (advance s).stack = s.stack := rfl
@[simp] theorem advance_out (s : State) : (advance s).out = s.out := rfl
@[simp] theorem advance_fault (s : State) : (advance s).fault = s.fault := rfl

/-! ### latchFault -/

@[simp] theorem latchFault_program (k : FaultKind) (s : State) : (latchFault k s).program = s.program := rfl
@[simp] theorem latchFault_halted (k : FaultKind) (s : State) : (latchFault k s).halted = s.halted := rfl
@[simp] theorem latchFault_out (k : FaultKind) (s : State) : (latchFault k s).out = s.out := rfl
@[simp] theorem latchFault_fault (k : FaultKind) (s : State) : (latchFault k s).fault = some k := rfl

theorem latchFault_stack_length_le (k : FaultKind) (s : State) : (latchFault k s).stack.length ≤ 256 := by
  simp [latchFault, Config.stackCapacity]

end Sys2Proof.Machine
end

