-- ==== Sys2Proof/Laws/Ops.lean ====
section
/-! SUPPORT. What each shared operation can do, said once: the value stack, raising a fault, and the stack operations inside an
instruction. -/

namespace Sys2Proof.Machine

/-! ### The capacity queries -/

@[simp] theorem isEmpty_iff (S : ValueStack) : isEmpty S = true ↔ S = [] := by
  simp [isEmpty]

@[simp] theorem isFull_iff (S : ValueStack) : isFull S = true ↔ S.length = 256 := by
  simp [isFull, Config.stackCapacity]

@[simp] theorem isFull_eq_false_iff (S : ValueStack) : isFull S = false ↔ S.length ≠ 256 := by
  simp [isFull, Config.stackCapacity]

/-! ### push -/

theorem push_of_ne_full {v : Value} {S : ValueStack} (h : S.length ≠ 256) : push v S = .ok (S ++ [v]) := by
  simp [push, h]

theorem push_of_full {v : Value} {S : ValueStack} (h : S.length = 256) : push v S = .error .stackOverflow := by
  simp [push, h]

/-- Everything `push` can do. -/
theorem push_cases (v : Value) (S : ValueStack) :
    (S.length = 256 ∧ push v S = .error .stackOverflow) ∨ (S.length ≠ 256 ∧ push v S = .ok (S ++ [v])) := by
  by_cases h : S.length = 256
  · exact .inl ⟨h, push_of_full h⟩
  · exact .inr ⟨h, push_of_ne_full h⟩

/-! ### pop and peek -/

@[simp] theorem pop_nil : pop [] = .error .stackUnderflow := rfl

@[simp] theorem pop_concat (S : ValueStack) (v : Value) : pop (S ++ [v]) = .ok (v, S) := by
  simp [pop]

@[simp] theorem peek_nil : peek [] = .error .stackUnderflow := rfl

@[simp] theorem peek_concat (S : ValueStack) (v : Value) : peek (S ++ [v]) = .ok v := by
  simp [peek]

/-- A stack is empty or has a top: the case split every popping instruction makes. -/
theorem stack_cases (S : ValueStack) : S = [] ∨ ∃ T v, S = T ++ [v] := by
  rcases List.eq_nil_or_concat S with h | ⟨T, v, h⟩
  · exact .inl h
  · exact .inr ⟨T, v, by simpa using h⟩

/-! ### Raising a fault -/

/-- A raised fault is no next state. -/
@[simp] theorem raise_ne_next (k : FaultKind) (s t : State) : raise k s ≠ .next t := by
  simp [raise]

/-- A raised fault is no refusal. -/
@[simp] theorem raise_ne_refused (k : FaultKind) (s : State) (r : Refusal) : raise k s ≠ .refused r := by
  simp [raise]

/-- Everything `raise` can do: it answers a fault of its kind, with the engine it leaves. -/
theorem raise_eq_fault (k : FaultKind) (s : State) : raise k s = .fault (faultReason k (latchFault k s)) := rfl

theorem raise_invalidOpcode (tag : Tag) (s : State) :
    raise (.invalidOpcode tag) s = .fault (.invalidOpcode tag (latchFault (.invalidOpcode tag) s)) := rfl

theorem raise_stackOverflow (s : State) :
    raise .stackOverflow s = .fault (.stackOverflow (latchFault .stackOverflow s)) := rfl

theorem raise_stackUnderflow (s : State) :
    raise .stackUnderflow s = .fault (.stackUnderflow (latchFault .stackUnderflow s)) := rfl

/-! ### Stack operations inside an instruction -/

theorem pushValue_of_ne_full {v : Value} {s : State} (h : s.stack.length ≠ 256) :
    pushValue v s = .next (setStack (s.stack ++ [v]) s) := by
  simp [pushValue, push_of_ne_full h]

theorem pushValue_of_full {v : Value} {s : State} (h : s.stack.length = 256) :
    pushValue v s = raise .stackOverflow s := by
  simp [pushValue, push_of_full h]

/-- If `pushValue` answers a next state, the stack was not full and the value is on top. -/
theorem pushValue_eq_next {v : Value} {s t : State} (h : pushValue v s = .next t) :
    s.stack.length ≠ 256 ∧ t = setStack (s.stack ++ [v]) s := by
  by_cases hf : s.stack.length = 256
  · simp [pushValue_of_full hf] at h
  · rw [pushValue_of_ne_full hf] at h
    exact ⟨hf, by simpa using h.symm⟩

theorem popThen_of_empty {s : State} {k : Value → State → Result} (h : s.stack = []) :
    popThen s k = raise .stackUnderflow s := by
  simp [popThen, h]

theorem popThen_of_concat {s : State} {S : ValueStack} {v : Value} {k : Value → State → Result}
    (h : s.stack = S ++ [v]) : popThen s k = k v (setStack S s) := by
  simp [popThen, h]

/-- If `popThen` answers a next state, there was a top and the rest went on without it. -/
theorem popThen_eq_next {s t : State} {k : Value → State → Result} (h : popThen s k = .next t) :
    ∃ S v, s.stack = S ++ [v] ∧ k v (setStack S s) = .next t := by
  rcases stack_cases s.stack with hs | ⟨S, v, hs⟩
  · simp [popThen_of_empty hs] at h
  · exact ⟨S, v, hs, by rwa [popThen_of_concat hs] at h⟩

theorem popTwoThen_of_empty {s : State} {k : Value → Value → State → Result} (h : s.stack = []) :
    popTwoThen s k = raise .stackUnderflow s := popThen_of_empty h

theorem popTwoThen_of_single {s : State} {a : Value} {k : Value → Value → State → Result} (h : s.stack = [a]) :
    popTwoThen s k = raise .stackUnderflow (setStack [] s) := by
  rw [popTwoThen, popThen_of_concat (S := []) (v := a) (by simpa using h), popThen_of_empty (by simp)]

theorem popTwoThen_of_concat {s : State} {S : ValueStack} {a b : Value} {k : Value → Value → State → Result}
    (h : s.stack = S ++ [b, a]) : popTwoThen s k = k a b (setStack S s) := by
  rw [popTwoThen, popThen_of_concat (S := S ++ [b]) (v := a) (by simpa using h),
    popThen_of_concat (S := S) (v := b) (by simp)]
  rfl

/-- A stack has no entry, one, or two on top of the rest: the case split the arithmetic instructions make. -/
theorem stack_two_cases (S : ValueStack) : S = [] ∨ (∃ a, S = [a]) ∨ ∃ T b a, S = T ++ [b, a] := by
  rcases stack_cases S with h | ⟨T, a, h⟩
  · exact .inl h
  · rcases stack_cases T with hT | ⟨U, b, hT⟩
    · exact .inr (.inl ⟨a, by simp [h, hT]⟩)
    · exact .inr (.inr ⟨U, b, a, by simp [h, hT]⟩)

/-! ### The tests a step makes -/

/-- A fetch finds no word exactly at the end of the program. -/
theorem fetch_eq_none_iff (s : State) : fetch s = none ↔ s.program.length ≤ s.pc := by
  simp [fetch]

@[simp] theorem isZero_iff (v : Value) : isZero v = true ↔ v = 0#32 := by
  simp [isZero]

/-- The immediate is the payload's number (R47). -/
@[simp] theorem immediate_toNat (v : Payload) : (immediate v).toNat = v.toNat := by
  have hv := v.isLt
  simp only [immediate, BitVec.toNat_setWidth]
  omega

theorem jumpTarget_le (t : Payload) : jumpTarget t ≤ 4095 := by
  have := t.isLt
  simp only [jumpTarget]
  omega

end Sys2Proof.Machine
end

