-- ==== Sys2Proof/Laws/Exec.lean ====
section
/-! SUPPORT. What a meaning that answers a next state has done, said once for all instructions. -/

namespace Sys2Proof.Machine

/-- Everything `arith` can do when it answers a next state. -/
theorem arith_eq_next {op : AluOp} {s t : State} (h : arith op s = .next t) :
    ∃ S b a, s.stack = S ++ [b, a] ∧ S.length ≠ 256 ∧ t = setStack (S ++ [alu op a b]) s := by
  rcases stack_two_cases s.stack with hs | ⟨a, hs⟩ | ⟨S, b, a, hs⟩
  · simp [arith, popTwoThen_of_empty hs] at h
  · simp [arith, popTwoThen_of_single hs] at h
  · rw [arith, popTwoThen_of_concat hs] at h
    obtain ⟨hf, rfl⟩ := pushValue_eq_next h
    exact ⟨S, b, a, hs, by simpa using hf, rfl⟩

/-- The effect of each instruction that answers a next state, with the operands it found. -/
def Effect : Instr → State → State → Prop
  | .pushConst v, s, t => s.stack.length ≠ 256 ∧ t = setStack (s.stack ++ [immediate v]) s
  | .pop, s, t => ∃ S v, s.stack = S ++ [v] ∧ t = setStack S s
  | .add, s, t => ∃ S b a, s.stack = S ++ [b, a] ∧ S.length ≠ 256 ∧ t = setStack (S ++ [alu .add a b]) s
  | .sub, s, t => ∃ S b a, s.stack = S ++ [b, a] ∧ S.length ≠ 256 ∧ t = setStack (S ++ [alu .sub a b]) s
  | .mul, s, t => ∃ S b a, s.stack = S ++ [b, a] ∧ S.length ≠ 256 ∧ t = setStack (S ++ [alu .mul a b]) s
  | .jumpIfZero g, s, t => ∃ S v, s.stack = S ++ [v] ∧
      t = if isZero v then setPc (jumpTarget g) (setStack S s) else setStack S s
  | .print, s, t => ∃ S v, s.stack = S ++ [v] ∧ t = emit v (setStack S s)
  | .halt, s, t => t = setHalted s
  | .invalid _, _, _ => False

/-- Everything `exec` can do when it answers a next state. -/
theorem exec_eq_next {i : Instr} {s t : State} (h : exec i s = .next t) : Effect i s t := by
  cases i with
  | pushConst v => exact pushValue_eq_next h
  | pop =>
    simp only [exec, execPop] at h
    obtain ⟨S, v, hs, e⟩ := popThen_eq_next h
    exact ⟨S, v, hs, (Host.Outcome.next.inj e).symm⟩
  | add => exact arith_eq_next h
  | sub => exact arith_eq_next h
  | mul => exact arith_eq_next h
  | jumpIfZero g =>
    simp only [exec, execJumpIfZero] at h
    obtain ⟨S, v, hs, e⟩ := popThen_eq_next h
    exact ⟨S, v, hs, (Host.Outcome.next.inj e).symm⟩
  | print =>
    simp only [exec, execPrint] at h
    obtain ⟨S, v, hs, e⟩ := popThen_eq_next h
    exact ⟨S, v, hs, (Host.Outcome.next.inj e).symm⟩
  | halt => simpa [exec, execHalt, Effect] using h.symm
  | invalid tag => exact absurd h (by simp [exec, execInvalid])

/-- Everything `arith` can do: complete, or raise a fault in an engine that differs from `s` in its stack only. -/
theorem arith_cases (op : AluOp) (s : State) :
    (∃ t, arith op s = .next t) ∨ ∃ k S, arith op s = raise k (setStack S s) := by
  rcases stack_two_cases s.stack with hs | ⟨a, hs⟩ | ⟨S, b, a, hs⟩
  · exact .inr ⟨.stackUnderflow, s.stack, popTwoThen_of_empty hs⟩
  · exact .inr ⟨.stackUnderflow, [], popTwoThen_of_single hs⟩
  · rw [arith, popTwoThen_of_concat hs]
    by_cases hf : S.length = 256
    · exact .inr ⟨.stackOverflow, S, pushValue_of_full (by simpa using hf)⟩
    · exact .inl ⟨_, pushValue_of_ne_full (by simpa using hf)⟩

/-- A popping instruction that completes on every top: complete, or raise `StackUnderflow` in `s`. -/
theorem popThen_cases {s : State} {k : Value → State → Result} (hk : ∀ v s', ∃ t, k v s' = .next t) :
    (∃ t, popThen s k = .next t) ∨ popThen s k = raise .stackUnderflow s := by
  rcases stack_cases s.stack with hs | ⟨S, v, hs⟩
  · exact .inr (popThen_of_empty hs)
  · exact .inl (by rw [popThen_of_concat hs]; exact hk v _)

/-- Everything `exec` can do: complete, or raise a fault in an engine that differs from `s` in its stack only. It never refuses. -/
theorem exec_cases (i : Instr) (s : State) :
    (∃ t, exec i s = .next t) ∨ ∃ k S, exec i s = raise k (setStack S s) := by
  cases i with
  | pushConst v =>
    by_cases hf : s.stack.length = 256
    · exact .inr ⟨.stackOverflow, s.stack, pushValue_of_full hf⟩
    · exact .inl ⟨_, pushValue_of_ne_full hf⟩
  | pop =>
    simp only [exec, execPop]
    exact (popThen_cases fun _ _ => ⟨_, rfl⟩).imp_right fun h => ⟨.stackUnderflow, s.stack, h⟩
  | add => exact arith_cases .add s
  | sub => exact arith_cases .sub s
  | mul => exact arith_cases .mul s
  | jumpIfZero t =>
    simp only [exec, execJumpIfZero]
    exact (popThen_cases fun _ _ => ⟨_, rfl⟩).imp_right fun h => ⟨.stackUnderflow, s.stack, h⟩
  | print =>
    simp only [exec, execPrint]
    exact (popThen_cases fun _ _ => ⟨_, rfl⟩).imp_right fun h => ⟨.stackUnderflow, s.stack, h⟩
  | halt => exact .inl ⟨_, rfl⟩
  | invalid tag => exact .inr ⟨.invalidOpcode tag, s.stack, rfl⟩

/-- No instruction is refused. -/
theorem exec_ne_refused (i : Instr) (s : State) (r : Refusal) : exec i s ≠ .refused r := by
  rcases exec_cases i s with ⟨t, h⟩ | ⟨k, S, h⟩ <;> simp [h]

end Sys2Proof.Machine
end

