-- ==== Sys2Proof/Laws/PerInstr.lean ====
section
/-! SUPPORT. Statements made for all instructions, one lemma per constructor. The family VariantTag: the canonical word of an
instruction value is a valid word, which `encode` never fails to give (spec/40_codec.md R63). -/

namespace Sys2Proof.Laws.VariantTag

/-- `encode` gives a word exactly to the eight instruction values, and it is below 0x8000: bit 15 is clear (R63). -/
def Statement (i : Instr) : Prop :=
  ((encode i).isSome ↔ i.isVariant = true) ∧ ∀ w, encode i = some w → w.toNat < 0x8000

/-- A word with a tag below 8 is below 0x8000. -/
theorem wordOf_lt {t : Tag} (p : Payload) (h : t.toNat < 8) : (wordOf t p).toNat < 0x8000 := by
  have hp := p.isLt
  rw [wordOf_toNat]
  omega

/-- The statement for an instruction value with tag `t`. -/
theorem statement_of_encode {i : Instr} {t : Tag} {p : Payload} (hi : i.isVariant = true)
    (he : encode i = some (wordOf t p)) (ht : t.toNat < 8) : Statement i := by
  refine ⟨by simp [he, hi], fun w hw => ?_⟩
  rw [he, Option.some.injEq] at hw
  exact hw ▸ wordOf_lt p ht

theorem pushConst (v : Payload) : Statement (.pushConst v) := statement_of_encode rfl rfl (by decide)
theorem pop : Statement .pop := statement_of_encode rfl rfl (by decide)
theorem add : Statement .add := statement_of_encode rfl rfl (by decide)
theorem sub : Statement .sub := statement_of_encode rfl rfl (by decide)
theorem mul : Statement .mul := statement_of_encode rfl rfl (by decide)
theorem jumpIfZero (t : Payload) : Statement (.jumpIfZero t) := statement_of_encode rfl rfl (by decide)
theorem print : Statement .print := statement_of_encode rfl rfl (by decide)
theorem halt : Statement .halt := statement_of_encode rfl rfl (by decide)
theorem invalid (tag : Tag) : Statement (.invalid tag) := ⟨by simp [encode, Instr.isVariant], by simp [encode]⟩

end Sys2Proof.Laws.VariantTag
end

