-- ==== Sys2Proof/Laws/Step.lean ====
section
/-! SUPPORT. What one step can do, said once; and the word `withFetchWord` places. -/

namespace Sys2Proof.Machine

/-- Running the fetched word, when it answers a next state. -/
theorem runWord_eq_next {w : Word} {s t : State} (h : runWord w s = .next t) :
    ∃ i, decode w = .ok i ∧ exec i (advance s) = .next t := by
  unfold runWord at h
  split at h
  · next i hi => exact ⟨i, hi, h⟩
  · simp [exec, execInvalid] at h

/-- Everything a step that answers a next state can do: nothing in the Halted state, halt at the end of the program, or run the
decoded instruction. -/
theorem step_eq_next {s t : State} (h : step s = .next t) :
    s.fault = none ∧
    ((s.halted = true ∧ t = s) ∨
     (s.halted = false ∧ fetch s = none ∧ t = setHalted s) ∨
     (s.halted = false ∧ ∃ w i, fetch s = some w ∧ decode w = .ok i ∧ exec i (advance s) = .next t)) := by
  unfold step engineStep at h
  split at h
  · cases h
  · next hf =>
    refine ⟨hf, ?_⟩
    unfold runStep at h
    split at h
    · next hh => exact .inl ⟨hh, by simpa using h.symm⟩
    · next hh =>
      have hr : s.halted = false := by simpa using hh
      split at h
      · next hw => exact .inr (.inl ⟨hr, hw, by simpa using h.symm⟩)
      · next w hw =>
        obtain ⟨i, hi, e⟩ := runWord_eq_next h
        exact .inr (.inr ⟨hr, w, i, hw, hi, e⟩)

/-- Everything a faulting step can do: it has fetched a word, and running that word faults. -/
theorem step_eq_fault {s : State} {f : Fault} (h : step s = .fault f) :
    s.fault = none ∧ s.halted = false ∧ ∃ w, fetch s = some w ∧ runWord w s = .fault f := by
  unfold step engineStep at h
  split at h
  · cases h
  · next hf =>
    unfold runStep at h
    split at h
    · cases h
    · next hh =>
      split at h
      · cases h
      · next w hw => exact ⟨hf, by simpa using hh, w, hw, h⟩

/-- A step is refused only where the fault status is set. -/
theorem step_eq_refused {s : State} {r : Refusal} (h : step s = .refused r) :
    (∃ k, s.fault = some k) ∧ r = .engineFaulted := by
  unfold step engineStep at h
  split at h
  · next k hk => exact ⟨⟨k, hk⟩, by simpa using h.symm⟩
  · unfold runStep runWord at h
    split at h
    · cases h
    · split at h
      · cases h
      · split at h
        · exact absurd h (exec_ne_refused _ _ _)
        · exact absurd h (exec_ne_refused _ _ _)

/-- A running engine that has not faulted runs the word it fetches. -/
theorem step_of_fetch {s : State} {w : Word} (hf : s.fault = none) (hh : s.halted = false) (hw : fetch s = some w) :
    step s = runWord w s := by
  simp [step, engineStep, runStep, hf, hh, hw]

/-- The placed word stands at its index. -/
theorem placeWord_getElem (P : List Word) (k : Nat) (w : Word) : (placeWord P k w)[k]? = some w := by
  have h : (P.take k ++ List.replicate (k - P.length) 0).length = k := by
    simp
    omega
  rw [placeWord, List.getElem?_append_right (by omega), h]
  simp

/-- Placing a word leaves every other word of the program as it was. -/
theorem placeWord_getElem_ne {P : List Word} {j k : Nat} (w : Word) (hj : j < P.length) (h : j ≠ k) :
    (placeWord P k w)[j]? = P[j]? := by
  rcases Nat.lt_or_gt_of_ne h with hlt | hgt
  · rw [placeWord, List.append_assoc, List.getElem?_append_left (by simp; omega), List.getElem?_take_of_lt hlt]
  · have hk : (P.take k ++ List.replicate (k - P.length) 0).length = k := by
      simp
      omega
    obtain ⟨d, rfl⟩ := Nat.exists_eq_add_of_lt hgt
    rw [placeWord, List.getElem?_append_right (by omega), hk, show k + d + 1 - k = d + 1 by omega, List.getElem?_cons_succ,
      List.getElem?_drop]
    congr 1
    omega

/-- The word placed by `withFetchWord` is the next one fetched. -/
theorem fetch_withFetchWord (s : State) (nbits w : Nat) :
    fetch (s.withFetchWord nbits w) = some (BitVec.ofNat 16 (w % 2 ^ nbits)) :=
  placeWord_getElem _ _ _

/-- `step` runs exactly the placed word. -/
theorem step_withFetchWord (s : State) (nbits w : Nat) :
    step (s.withFetchWord nbits w) = runWord (BitVec.ofNat 16 (w % 2 ^ nbits)) (s.withFetchWord nbits w) :=
  step_of_fetch rfl rfl (fetch_withFetchWord s nbits w)

end Sys2Proof.Machine
end

