-- ==== Sys2Proof/Tests/Slice0.lean ====
section
/-! SUPPORT. The model's own tests. Expected results come from spec/95_test_vectors.md (the vector is named) or from the rule named;
after them, for every obligation with hypotheses, states and operands that meet them. -/

namespace Sys2Proof.Tests

open Sys2Proof.Machine

/-! ### Helpers -/

/-- The state the vectors write `(pc, halted, S, out)`, of program `P`. -/
def at_ (P : List Word) (pc : Nat) (halted : Bool) (S : ValueStack) (out : List Value) : State :=
  { State.reset with program := P, pc := pc, halted := halted, stack := S, out := out }

/-- A Running state with the stack `S`. -/
def on (S : ValueStack) : State := at_ [] 0 false S []

/-- The next state, if there is one. -/
def next? : Result → Option State
  | .next t => some t
  | _ => none

/-- What the host gets of a fault, if there is one. -/
def fault? : Result → Option (FaultKind × List Value)
  | .fault f => some (faultReport f)
  | _ => none

/-- A full stack. -/
def full : ValueStack := List.replicate 256 1

theorem full_length : full.length = 256 := List.length_replicate

/-- A stack with one free slot. -/
def almostFull : ValueStack := List.replicate 255 1

/-- `PushConst` on a full stack raises `StackOverflow`, whatever else the engine holds. -/
theorem fault?_pushConst_full {v : Payload} {s : State} (h : s.stack.length = 256) :
    fault? (exec (.pushConst v) s) = some (.stackOverflow, s.out) := by
  rw [show exec (.pushConst v) s = raise .stackOverflow s from pushValue_of_full h]
  rfl

theorem almostFull_length : almostFull.length = 255 := List.length_replicate

/-! ### WellFormed: the smoke test, one ill-formed term for its one check (R51, R24) -/

theorem test_invalid_row_with_valid_tag_refused : (Instr.invalid 7).wellFormed = false := by decide
theorem test_invalid_row_with_invalid_tag_accepted : (Instr.invalid 8).wellFormed = true := by decide
theorem test_fault_status_with_valid_tag_refused : (FaultKind.invalidOpcode 7).legal = false := by decide

/-! ### Decode: words written out bit by bit from R45 and R49 (tag, payload) -/

theorem test_decode_pushConst : decode 0b0000100000000000#16 = .ok (.pushConst 2048) := rfl   -- V1 0800
theorem test_decode_pop : decode 0b0001101010111100#16 = .ok .pop := rfl                       -- V1 1ABC
theorem test_decode_add : decode 0b0010000000000001#16 = .ok .add := rfl                       -- V1 2001
theorem test_decode_sub : decode 0b0011111111111111#16 = .ok .sub := rfl                       -- V1 3FFF
theorem test_decode_mul : decode 0b0100000000000000#16 = .ok .mul := rfl                       -- V1 4000
theorem test_decode_jumpIfZero : decode 0b0101111110100000#16 = .ok (.jumpIfZero 4000) := rfl  -- V1 5FA0
theorem test_decode_print : decode 0b0110000100100011#16 = .ok .print := rfl                   -- V1 6123
theorem test_decode_halt : decode 0b0111111111111111#16 = .ok .halt := rfl                     -- V1 7FFF
theorem test_decode_invalid : decode 0b1001101010111100#16 = .error (.invalidOpcode 9) := rfl  -- V1 9ABC
theorem test_decodeTableWord_invalid : decodeTableWord 16 0x8000 = some (.invalid 8) := by decide
theorem test_encode_jumpIfZero : encode (.jumpIfZero 4095) = some 0x5FFF := by decide          -- V2
theorem test_encode_truncates : assemble [.pushConst 0x1234, .push 4097, .jumpIfZero 4100] = [0x0234, 0x0001, 0x5004] := by
  decide                                                                                       -- V2

/-! ### Instructions -/

-- V5: 0800 on [] pushes 2048, not -2048.
theorem test_pushConst_zero_extends : (next? (exec (.pushConst 2048) (on []))).map (·.stack) = some [2048] := by decide
-- V5: 0001 on 256 elements.
theorem test_pushConst_overflows : fault? (exec (.pushConst 1) (on full)) = some (.stackOverflow, []) :=
  fault?_pushConst_full full_length
-- V5: 1000 on [5, 9] and on [].
theorem test_pop_drops_top : (next? (exec .pop (on [5, 9]))).map (·.stack) = some [5] := by decide
theorem test_pop_underflows : fault? (exec .pop (on [])) = some (.stackUnderflow, []) := by decide
-- V6: INT_MAX + 1 = INT_MIN; one element underflows at the second pop.
theorem test_add_wraps : (next? (exec .add (on [9, 0x7FFFFFFF, 1]))).map (·.stack) = some [9, 0x80000000] := by decide
theorem test_add_underflows_at_second_pop : fault? (exec .add (on [5])) = some (.stackUnderflow, []) := by decide
-- V6: 15 - 3 = 12 (operand order); INT_MIN - 1 = INT_MAX.
theorem test_sub_order : (next? (exec .sub (on [15, 3]))).map (·.stack) = some [12] := by decide
theorem test_sub_wraps : (next? (exec .sub (on [0x80000000, 1]))).map (·.stack) = some [0x7FFFFFFF] := by decide
-- V6: 16769025 * 4095 = -50319361; INT_MIN * -1 = INT_MIN.
theorem test_mul_wraps : (next? (exec .mul (on [16769025, 4095]))).map (·.stack) = some [BitVec.ofInt 32 (-50319361)] := by decide
theorem test_mul_int_min : (next? (exec .mul (on [0x80000000, 0xFFFFFFFF]))).map (·.stack) = some [0x80000000] := by decide
-- V7 rows 1 and 12, as steps at index 3 of a program with LEN = 6.
theorem test_jumpIfZero_taken :
    next? (step (at_ [0, 0, 0, 0x5005, 0, 0] 3 false [9, 0] [])) = some (at_ [0, 0, 0, 0x5005, 0, 0] 5 false [9] []) := by decide
theorem test_jumpIfZero_int_min_falls_through :
    next? (step (at_ [0, 0, 0, 0x5005, 0, 0] 3 false [0x80000000] [])) = some (at_ [0, 0, 0, 0x5005, 0, 0] 4 false [] []) := by
  decide
-- V8: -5 then 7; an empty stack emits nothing.
theorem test_print_appends : (next? (exec .print (at_ [] 0 false [7] [-5]))).map (·.out) = some [-5, 7] := by decide
theorem test_print_underflows : fault? (exec .print (at_ [] 0 false [] [3])) = some (.stackUnderflow, [3]) := by decide
-- V7 row 5: 7ABC halts with pc one past itself; V9: 7000 8000 never fetches the invalid word.
theorem test_halt_step :
    next? (step (at_ [0, 0, 0, 0x7ABC] 3 false [] [])) = some (at_ [0, 0, 0, 0x7ABC] 4 true [] []) := by decide
theorem test_halted_step_is_noop :
    next? (step (at_ [0x7000, 0x8000] 1 true [] [])) = some (at_ [0x7000, 0x8000] 1 true [] []) := by decide
-- V9: 8000 with a full stack: the tag is examined before any stack operation.
theorem test_invalid_word_faults_first :
    fault? (step (at_ [0x8000] 0 false full [])) = some (.invalidOpcode 8, []) := by decide

/-! ### Steps that fetch nothing, placing a word, text -/

-- V7 rows 9 and 14: end of program beyond LEN and of the empty program.
theorem test_end_of_program_keeps_pc : next? (step (at_ [0x5FFF] 4095 false [] [])) = some (at_ [0x5FFF] 4095 true [] []) := by
  decide
theorem test_empty_program_halts : next? (step State.reset) = some (at_ [] 0 true [] []) := by decide
theorem test_placed_word_runs : (next? (step (State.reset.withFetchWord 16 0x000A))).map (·.stack) = some [10] := by decide
-- V8: the longest text, and no separator.
theorem test_text_int_min : decText 0x80000000 = ['-', '2', '1', '4', '7', '4', '8', '3', '6', '4', '8'] := by decide
theorem test_text_has_no_separator : textOf [-5, 7] = ['-', '5', '7'] ∧ textOf [1, 2] = textOf [12] := by decide
theorem test_disassemble_ignores_payload : disassemble 0x1ABC = ['P', 'o', 'p'] ∧
    disassemble 0x5FA0 = ['J', 'u', 'm', 'p', 'I', 'f', 'Z', 'e', 'r', 'o', '(', '4', '0', '0', '0', ')'] := by decide
-- R72, R150: a host peek on an empty stack is a result to the host.
theorem test_host_peek_on_empty : hostPeek State.reset = .error .stackUnderflow := rfl

/-! ### Witnesses: the hypotheses of the obligations are met -/

theorem witness_PushConstPushesPayload : (on almostFull).stack.length ≤ 255 ∧ (on full).stack.length = 256 :=
  ⟨almostFull_length.le, full_length⟩

theorem witness_PopDropsTop : (on [5, 9]).stack = [5] ++ [9] ∧ (on []).stack = [] := by decide

/-- For `Add`, `Sub`, `Mul` and ArithmeticIsSignAgnostic: two entries, a full stack, one entry, none. -/
theorem witness_arithmetic :
    ((on [15, 3]).stack = [] ++ [15, 3] ∧ (on [15, 3]).stack.length ≤ 256) ∧
    (∃ S b a, (on full).stack = S ++ [b, a] ∧ (on full).stack.length ≤ 256) ∧
    (on [5]).stack.length ≤ 1 ∧ (on []).stack.length ≤ 1 :=
  ⟨by decide, ⟨List.replicate 254 1, 1, 1, List.replicate_add 254 2 1, full_length.le⟩, by decide⟩

/-- For `JumpIfZero` and `Print` (and PrintExtendsTheText): a zero on top, a value that is not zero, an empty stack. -/
theorem witness_popping : (on [9, 0]).stack = [9] ++ [0] ∧ (on [1]).stack = [] ++ [1] ∧ (on []).stack = [] := by decide

/-- A running engine at a `Halt` word, the last of its tag. -/
theorem witness_HaltSetsHalted :
    let s := at_ [0x7FFF] 0 false [] []
    s.fault = none ∧ s.halted = false ∧ s.program[s.pc]? = some 0x7FFF ∧ (0x7FFF : Word).toNat / 4096 = 7 := by decide

/-- The smallest and the largest invalid word; an engine that fetches any given word; and a fetched invalid word that faults. -/
theorem witness_InvalidWordsFault :
    (decode 0x8000 = .error (.invalidOpcode 8) ∧ decode 0xFFFF = .error (.invalidOpcode 15)) ∧
    (∀ w : Word, (at_ [w] 0 false [] []).fault = none ∧ (at_ [w] 0 false [] []).halted = false ∧
      (at_ [w] 0 false [] []).program[(at_ [w] 0 false [] []).pc]? = some w) ∧
    fault? (step (at_ [0xFFFF] 0 false [] [])) = some (.invalidOpcode 15, []) :=
  ⟨⟨rfl, rfl⟩, fun _ => ⟨rfl, rfl, rfl⟩, by decide⟩

/-- For InstructionFrame and InstructionStackFrame: each of the eight instructions completes somewhere. -/
theorem witness_completions :
    (next? (exec (.pushConst 1) (on []))).isSome ∧ (next? (exec .pop (on [1]))).isSome ∧
    (next? (exec .add (on [7, 2, 1]))).isSome ∧ (next? (exec .sub (on [7, 2, 1]))).isSome ∧
    (next? (exec .mul (on [7, 2, 1]))).isSome ∧ (next? (exec (.jumpIfZero 3) (on [7, 0]))).isSome ∧
    (next? (exec .print (on [7, 1]))).isSome ∧ (next? (exec .halt (on []))).isSome := by decide

/-- For OverflowOnlyFromPushConst and UnderflowExactly: the bound holds of an empty and of a full stack. -/
theorem witness_stack_bound : (on []).stack.length ≤ 256 ∧ (on full).stack.length ≤ 256 :=
  ⟨by decide, full_length.le⟩

theorem witness_InvalidOpcodeExactly : (at_ [0x8000] 0 false [] []).fault = none := rfl

/-- For FaultingStepLatchesAndStops, EnginePortsShowTheStatus and the fault clauses of OutputIsAppendOnlyAndNeverRead: a step of each
kind of fault. -/
theorem witness_faulting_steps :
    fault? (step (at_ [0x9ABC] 0 false [] [4])) = some (.invalidOpcode 9, [4]) ∧
    fault? (step (at_ [0x0001] 0 false full [4])) = some (.stackOverflow, [4]) ∧
    fault? (step (at_ [0x2000] 0 false [1] [4])) = some (.stackUnderflow, [4]) := by
  refine ⟨by decide, ?_, by decide⟩
  rw [step_of_fetch (w := 0x0001) rfl rfl rfl]
  exact fault?_pushConst_full (s := advance (at_ [0x0001] 0 false full [4])) full_length

/-- For StepCompletesExactlyWhenSafe: a safe engine and an unsafe one. -/
theorem witness_StepCompletesExactlyWhenSafe :
    (let s := at_ [0x2000] 0 false [2, 1] []
     s.fault = none ∧ s.stack.length ≤ 256 ∧ stepSafe s = true) ∧
    (let s := at_ [0x2000] 0 false [1] []
     s.fault = none ∧ s.stack.length ≤ 256 ∧ stepSafe s = false) := by decide

/-- A clause of StepRunsTheDecodedInstruction each: Halted, the end of the program, a valid and an invalid word. -/
theorem witness_StepRunsTheDecodedInstruction :
    ((at_ [] 0 true [] []).fault = none ∧ (at_ [] 0 true [] []).halted = true) ∧
    (let s := at_ [0x1000] 1 false [] []
     s.fault = none ∧ s.halted = false ∧ s.program.length ≤ s.pc) ∧
    (let s := at_ [0x7FFF] 0 false [] []
     s.fault = none ∧ s.halted = false ∧ s.program[s.pc]? = some 0x7FFF ∧ decode 0x7FFF = .ok .halt) ∧
    (let s := at_ [0x8000] 0 false [] []
     s.fault = none ∧ s.halted = false ∧ s.program[s.pc]? = some 0x8000 ∧ decode 0x8000 = .error (.invalidOpcode 8)) :=
  ⟨⟨rfl, rfl⟩, ⟨rfl, rfl, by decide⟩, ⟨rfl, rfl, rfl, rfl⟩, ⟨rfl, rfl, rfl, rfl⟩⟩

theorem witness_FaultedEngineHasNoTransition :
    let s := { State.reset with fault := some .stackOverflow }
    s.fault = some .stackOverflow ∧ s.halted = false := by decide

/-- For ProgramCounterAfterStep, HaltedSetByExactlyTwoEvents, OutputIsAppendOnlyAndNeverRead and StepReadsOnlyTheFetchedWord: steps that
complete, in the Halted state, at the end of the program, at a taken jump, a `Print` and a `Halt`; and another program that agrees at `pc`. -/
theorem witness_completing_steps :
    (next? (step (at_ [0x6000] 0 true [] []))).isSome ∧ (next? (step (at_ [0x6000] 1 false [] []))).isSome ∧
    (next? (step (at_ [0x5FFF] 0 false [0] []))).isSome ∧ (next? (step (at_ [0x6000] 0 false [3] [4]))).isSome ∧
    (next? (step (at_ [0x7000] 0 false [] []))).isSome ∧
    ([0x7000, 0x8000] : List Word)[0]? = ([0x7000] : List Word)[0]? := by decide

/-- For the clauses of HaltedSetByExactlyTwoEvents on a set flag. -/
theorem witness_halted_engine : (at_ [] 0 true [] []).halted = true ∧ (at_ [] 0 true [] []).fault = none := by decide

/-- For the fault and refusal clauses of StepReadsOnlyTheFetchedWord and of OutputIsAppendOnlyAndNeverRead: an engine that faults with two
programs that agree at `pc`, and a faulted engine whose step is refused. -/
theorem witness_other_program :
    ([0x1000, 0x8000] : List Word)[0]? = (at_ [0x1000] 0 false [] [4]).program[(at_ [0x1000] 0 false [] [4]).pc]? ∧
    fault? (step (at_ [0x1000] 0 false [] [4])) = some (.stackUnderflow, [4]) ∧
    step { State.reset with fault := some .stackOverflow } = .refused .engineFaulted := ⟨by decide, by decide, rfl⟩

/-- A jump exactly to the end, and to the highest target. -/
theorem witness_JumpBeyondEndHaltsCleanly :
    (let s := at_ [0x5001] 0 false [9, 0] []
     s.fault = none ∧ s.halted = false ∧ s.program[s.pc]? = some 0x5001 ∧ (0x5001 : Word).toNat / 4096 = 5 ∧
     s.stack = [9] ++ [0#32] ∧ s.program.length ≤ (0x5001 : Word).toNat % 4096) ∧
    (let s := at_ [0x5FFF] 0 false [0] []
     s.fault = none ∧ s.halted = false ∧ s.program[s.pc]? = some 0x5FFF ∧ (0x5FFF : Word).toNat / 4096 = 5 ∧
     s.stack = [] ++ [0#32] ∧ s.program.length ≤ (0x5FFF : Word).toNat % 4096) := by decide

/-- For EveryStepKeepsEngineInv, ReachableStatesMeetInv and FiniteProgramCounterIsExact: the engine just constructed meets the
invariant, is reachable, steps, and 12 bits hold its counters. -/
theorem witness_invariant :
    EngineInv (construct [0x7000]) ∧ Reachable [0x7000] (construct [0x7000]) ∧
    step (construct [0x7000]) = .next (at_ [0x7000] 1 true [] []) ∧
    Config.pcWidthSuffices 12 (construct [0x7000]).program.length :=
  ⟨⟨by decide, by decide, rfl⟩, .construct, rfl, by decide⟩

/-- For the codec's statements: a variant that is canonical and a word that is not, with its re-encoding. -/
theorem witness_codec :
    (Instr.pushConst 4095).isVariant = true ∧ decode 0x1ABC = .ok .pop ∧ encode .pop = some 0x1000 ∧
    decode 0x5FA0 = .ok (.jumpIfZero 4000) ∧ encode (.jumpIfZero 4000) = some 0x5FA0 :=
  ⟨rfl, rfl, rfl, rfl, rfl⟩

/-- For each clause of DecodeFollowsTheOpcodeMap: the last word of each tag. -/
theorem witness_every_tag :
    (0x0FFF : Word).toNat / 4096 = 0 ∧ (0x1FFF : Word).toNat / 4096 = 1 ∧ (0x2FFF : Word).toNat / 4096 = 2 ∧
    (0x3FFF : Word).toNat / 4096 = 3 ∧ (0x4FFF : Word).toNat / 4096 = 4 ∧ (0x5FFF : Word).toNat / 4096 = 5 ∧
    (0x6FFF : Word).toNat / 4096 = 6 ∧ (0x7FFF : Word).toNat / 4096 = 7 ∧ 8 ≤ (0x8000 : Word).toNat / 4096 := by decide

/-- For CodecPortsAgree: the encoder is offered `PushConst`'s payload in 16 bits whose top is not zero, and a payload that is not zero for
`Pop`, whose index 1 is neither 0 nor 5. -/
theorem witness_CodecPortsAgree :
    (variantBits (.pushConst 0x234) = some ⟨0, 0x234⟩ ∧ 12 ≤ Config.encInWidth ∧
      (0x1234 : BitVec 16).setWidth 12 = (0x234 : Payload)) ∧
    (variantBits .pop = some ⟨1, 0⟩ ∧ ¬ ((1 : BitVec 3) = 0#3 ∨ (1 : BitVec 3) = 5#3)) ∧
    encoderPort 1 (0xABC : BitVec 16) = 0x1000 := by
  decide

/-- For DisassemblyPrintsMnemonicAndPayload (and witness_every_tag for its clauses by tag): two valid words of one instruction, two of
different ones, and two invalid words. -/
theorem witness_disassembly :
    (decode 0x1ABC = .ok .pop ∧ encode .pop = some 0x1000) ∧
    (0x1ABC : Word).toNat < 0x8000 ∧ (0x1000 : Word).toNat < 0x8000 ∧ (0x7FFF : Word).toNat < 0x8000 ∧
    0x8000 ≤ (0x8000 : Word).toNat ∧ 0x8000 ≤ (0xFFFF : Word).toNat ∧
    disassemble 0xF00A = ['0', 'x', 'F', '0', '0', 'A'] := ⟨⟨rfl, rfl⟩, by decide⟩

/-- For StackOperationsFollowTheirRules and StackIsLastInFirstOut: full, one slot free, empty, one entry; a list that just fits, one that
does not, and more pops than entries. -/
theorem witness_stack :
    full.length = 256 ∧ almostFull.length < 256 ∧ ([7] : ValueStack) = [] ++ [7] ∧
    almostFull.length + ([2] : List Value).length ≤ 256 ∧
    full.length ≤ 256 ∧ 256 < full.length + ([2] : List Value).length ∧ ([] : ValueStack).length < 1 := by
  simp [full_length, almostFull_length]

end Sys2Proof.Tests
end

/-! Who writes and who reads the `halted` flag (spec/10_state.md R15). -/

namespace Sys2Proof.Machine

/-- Among the instructions only `Halt` writes the flag, and it writes true. -/
theorem Effect.halted_iff {i : Instr} {s t : State} (h : Effect i s t) :
    t.halted = true ↔ s.halted = true ∨ i = .halt := by
  cases i with
  | pushConst v =>
    obtain ⟨-, rfl⟩ := h
    simp
  | pop =>
    obtain ⟨S, v, -, rfl⟩ := h
    simp
  | add | sub | mul =>
    obtain ⟨S, b, a, -, -, rfl⟩ := h
    simp
  | jumpIfZero g =>
    obtain ⟨S, v, -, rfl⟩ := h
    split <;> simp
  | print =>
    obtain ⟨S, v, -, rfl⟩ := h
    simp
  | halt =>
    obtain rfl : t = setHalted s := h
    simp
  | invalid tag => exact h.elim

/-- `Halt` is the instruction of tag 7 (R49). -/
theorem eq_halt_iff_of_decode {w : Word} {i : Instr} (h : decode w = .ok i) : i = .halt ↔ w.toNat / 4096 = 7 := by
  rw [← tagOf_toNat]
  rcases decode_cases w with ⟨ht, e⟩ | ⟨ht, e⟩ | ⟨ht, e⟩ | ⟨ht, e⟩ | ⟨ht, e⟩ | ⟨ht, e⟩ | ⟨ht, e⟩ | ⟨ht, e⟩ | ⟨-, e⟩ <;>
    rw [e] at h <;> cases h <;> simp [ht]

/-- The two events that set the flag (R15), for every step that completes. -/
theorem step_next_halted_iff {s t : State} (h : step s = .next t) :
    t.halted = true ↔
      s.halted = true ∨ fetch s = none ∨ ∃ w, fetch s = some w ∧ w.toNat / 4096 = 7 := by
  obtain ⟨-, ⟨hh, rfl⟩ | ⟨-, hw, rfl⟩ | ⟨-, w, i, hw, hi, he⟩⟩ := step_eq_next h
  · simp [hh]
  · simp [hw]
  · have hset : t.halted = true ↔ s.halted = true ∨ i = .halt := (exec_eq_next he).halted_iff
    simp [hset, hw, eq_halt_iff_of_decode hi]

/-- A Halted engine that has not faulted: a step is a no-op (R81). -/
theorem step_of_halted {s : State} (hf : s.fault = none) (hh : s.halted = true) : step s = .next s := by
  simp [step, engineStep, runStep, hf, hh]

/-- A Halted engine: `run()` takes no step (R86), with any fuel. -/
theorem run_of_halted {s : State} (hh : s.halted = true) (n : Nat) : run n s = .halted s := by
  cases n <;> simp [run, hh]

/-- Settles O21: construction leaves the flag false, `step_next_halted_iff` gives its two setters, and in the Halted state
`step_of_halted` and `run_of_halted` give its readers. -/
theorem haltedSetByExactlyTwoEvents : Obligations.HaltedSetByExactlyTwoEvents := by
  refine ⟨fun P => rfl, fun s t h => ?_, fun s hh hf => ⟨step_of_halted hf hh, run_of_halted hh⟩, fun width s => rfl⟩
  rw [← fetch_eq_none_iff]
  exact step_next_halted_iff h

end Sys2Proof.Machine

/-! The words that are no instruction (spec/30_encoding.md R51): which fault they raise, and that nothing else raises it. -/

namespace Sys2Proof.Machine

/-- `decode` fails exactly on the tags 8..15, with `InvalidOpcode` of the word's own tag (R51, R60). -/
theorem decode_eq_error_iff {w : Word} {k : FaultKind} :
    decode w = .error k ↔ 8 ≤ (tagOf w).toNat ∧ k = .invalidOpcode (tagOf w) := by
  rcases decode_cases w with ⟨ht, e⟩ | ⟨ht, e⟩ | ⟨ht, e⟩ | ⟨ht, e⟩ | ⟨ht, e⟩ | ⟨ht, e⟩ | ⟨ht, e⟩ | ⟨ht, e⟩ | ⟨ht, e⟩ <;>
    simp [e, ht, eq_comm]

/-- The tags 8..15 are those of the words from 0x8000 on (R51). -/
theorem tagOf_invalid_iff (w : Word) : 8 ≤ (tagOf w).toNat ↔ 0x8000 ≤ w.toNat := by
  rw [tagOf_toNat]
  omega

/-- The result is not the fault `InvalidOpcode`. -/
def NoInvalidOpcode (r : Result) : Prop := ∀ tag e, r ≠ .fault (.invalidOpcode tag e)

theorem noInvalidOpcode_next (t : State) : NoInvalidOpcode (.next t) := fun _ _ => nofun

theorem noInvalidOpcode_pushValue (v : Value) (s : State) : NoInvalidOpcode (pushValue v s) := by
  by_cases hf : s.stack.length = 256
  · rw [pushValue_of_full hf, raise_stackOverflow]
    exact fun _ _ => nofun
  · rw [pushValue_of_ne_full hf]
    exact noInvalidOpcode_next _

/-- Popping adds `StackUnderflow` only to what the rest of the instruction can raise. -/
theorem noInvalidOpcode_popThen {s : State} {k : Value → State → Result} (hk : ∀ v s', NoInvalidOpcode (k v s')) :
    NoInvalidOpcode (popThen s k) := by
  rcases stack_cases s.stack with hs | ⟨S, v, hs⟩
  · rw [popThen_of_empty hs, raise_stackUnderflow]
    exact fun _ _ => nofun
  · rw [popThen_of_concat hs]
    exact hk v _

theorem noInvalidOpcode_arith (op : AluOp) (s : State) : NoInvalidOpcode (arith op s) := by
  rw [arith, popTwoThen]
  exact noInvalidOpcode_popThen fun _ _ => noInvalidOpcode_popThen fun _ _ => noInvalidOpcode_pushValue _ _

/-- None of the eight instructions raises `InvalidOpcode` (R126). -/
theorem noInvalidOpcode_exec {i : Instr} (hi : i.isVariant = true) (s : State) : NoInvalidOpcode (exec i s) := by
  cases i with
  | pushConst v => exact noInvalidOpcode_pushValue _ s
  | pop | jumpIfZero | print =>
    simp only [exec, execPop, execJumpIfZero, execPrint]
    exact noInvalidOpcode_popThen fun _ _ => noInvalidOpcode_next _
  | add | sub | mul => exact noInvalidOpcode_arith _ s
  | halt => exact noInvalidOpcode_next _
  | invalid tag => cases hi

/-- Running a word ends with `InvalidOpcode` exactly where decoding it does, with the same tag (R84, R126). -/
theorem runWord_eq_invalidOpcode_iff {w : Word} {s : State} {tag : Tag} :
    (∃ e, runWord w s = .fault (.invalidOpcode tag e)) ↔ decode w = .error (.invalidOpcode tag) := by
  constructor
  · rintro ⟨e, h⟩
    unfold runWord at h
    split at h
    · next i hi => exact absurd h (noInvalidOpcode_exec (isVariant_of_decode hi) _ _ _)
    · next k hk =>
      obtain ⟨-, rfl⟩ := decode_eq_error_iff.1 hk
      cases h
      exact hk
  · intro h
    obtain ⟨-, ⟨⟩⟩ := decode_eq_error_iff.1 h
    exact ⟨latchFault (.invalidOpcode (tagOf w)) s, by rw [runWord, h]; rfl⟩

/-- Settles O9: `decode_eq_error_iff` gives the words and their tag, and a step on a fetched word ends with this fault
exactly where `decode` does (`runWord_eq_invalidOpcode_iff`). -/
theorem invalidWordsFault : Obligations.InvalidWordsFault := by
  have hdec (w : Word) : 0x8000 ≤ w.toNat ↔ ∃ tag, decode w = .error (.invalidOpcode tag) := by
    simp [decode_eq_error_iff, tagOf_invalid_iff]
  have htag (w : Word) (tag : Tag) (h : decode w = .error (.invalidOpcode tag)) : tag.toNat = w.toNat / 4096 := by
    obtain ⟨-, ⟨⟩⟩ := decode_eq_error_iff.1 h
    exact tagOf_toNat w
  refine ⟨hdec, htag, fun s w hf hh hw => ?_⟩
  rw [step_of_fetch hf hh hw]
  refine ⟨?_, fun tag e h => htag w tag (runWord_eq_invalidOpcode_iff.1 ⟨e, h⟩)⟩
  simp only [runWord_eq_invalidOpcode_iff]
  exact hdec w

end Sys2Proof.Machine

/-! A payload wider than 12 bits in a listing (spec/30_encoding.md R54): truncated before the instruction value exists. -/

namespace Sys2Proof.Machine

@[simp] theorem truncatePayload_toNat (n : Nat) : (truncatePayload n).toNat = n % 4096 := by
  simp [truncatePayload]

/-- A listing of one item is the canonical word of the item's instruction (R53). -/
theorem assemble_singleton {it : ListingItem} {w : Word} (h : encode (itemInstr it) = some w) : assemble [it] = [w] := by
  simp [assemble, h]

/-- Every item stands for an instruction value, so that `encode` never rejects it (R53, R63). -/
theorem encode_itemInstr_isSome (it : ListingItem) : (encode (itemInstr it)).isSome = true := by
  cases it <;> rfl

/-- A listing assembles to one word for each of its items (R53). -/
theorem assemble_length (l : List ListingItem) : (assemble l).length = l.length :=
  List.filterMap_length_eq_length.2 fun it _ => encode_itemInstr_isSome it

/-- Settles O36: the words are `wordOf` of the tags 0 and 5 and the truncated payload, and no item is rejected
(`assemble_length`). -/
theorem widePayloadsAreTruncated : Obligations.WidePayloadsAreTruncated := by
  refine ⟨fun n => ⟨wordOf 0#4 (truncatePayload n), assemble_singleton rfl, assemble_singleton rfl, ?_⟩,
    fun n => ⟨wordOf 5#4 (truncatePayload n), assemble_singleton rfl, ?_⟩, assemble_length⟩
  · simp [wordOf_toNat]
  · simp [wordOf_toNat]

end Sys2Proof.Machine

/-! The codec: the opcode map in both directions and the round trip (spec/40_codec.md R60, R63, R65). -/

namespace Sys2Proof.Machine

/-- `decode` reads back every word that `encode` gives (R65). -/
theorem decode_of_encode {i : Instr} {w : Word} (h : encode i = some w) : decode w = .ok i := by
  cases i with
  | pushConst v | jumpIfZero v =>
    cases h
    simp [decode]
  | pop | add | sub | mul | print | halt =>
    cases h
    rfl
  | invalid tag => cases h

/-- The family VariantTag (Laws/PerInstr) for every term of `Instr`. -/
theorem variantTag_statement (i : Instr) : Laws.VariantTag.Statement i := by
  cases i with
  | pushConst v => exact Laws.VariantTag.pushConst v
  | pop => exact Laws.VariantTag.pop
  | add => exact Laws.VariantTag.add
  | sub => exact Laws.VariantTag.sub
  | mul => exact Laws.VariantTag.mul
  | jumpIfZero t => exact Laws.VariantTag.jumpIfZero t
  | print => exact Laws.VariantTag.print
  | halt => exact Laws.VariantTag.halt
  | invalid tag => exact Laws.VariantTag.invalid tag

/-- Settles O33: every variant has a word (`variantTag_statement`), and `decode_of_encode` reads that word back. -/
theorem decodeEncodeRoundTrip : Obligations.DecodeEncodeRoundTrip := by
  intro i hi
  obtain ⟨w, hw⟩ := Option.isSome_iff_exists.1 ((variantTag_statement i).1.2 hi)
  exact ⟨w, hw, decode_of_encode hw⟩

/-- The payload in the arithmetic form of R45, `w` modulo 4096. -/
theorem ofNat_mod_eq_payloadOf (w : Word) : BitVec.ofNat 12 (w.toNat % 4096) = payloadOf w := by
  rw [← payloadOf_toNat, BitVec.ofNat_toNat, BitVec.setWidth_eq]

/-- The tag in the arithmetic form of R45, the quotient of `w` by 4096. -/
theorem ofNat_div_eq_tagOf (w : Word) : BitVec.ofNat 4 (w.toNat / 4096) = tagOf w := by
  rw [← tagOf_toNat, BitVec.ofNat_toNat, BitVec.setWidth_eq]

/-- Settles O30: the quotient is the tag and the remainder the payload, so each case of `decode_cases` is one clause and
contradicts the premises of the others. -/
theorem decodeFollowsTheOpcodeMap : Obligations.DecodeFollowsTheOpcodeMap := by
  intro w
  rw [ofNat_mod_eq_payloadOf, ofNat_div_eq_tagOf, ← tagOf_toNat]
  have hne (n : Nat) (hn : n < 8) (h : 8 ≤ (tagOf w).toNat) : (tagOf w).toNat ≠ n := by omega
  rcases decode_cases w with ⟨ht, e⟩ | ⟨ht, e⟩ | ⟨ht, e⟩ | ⟨ht, e⟩ | ⟨ht, e⟩ | ⟨ht, e⟩ | ⟨ht, e⟩ | ⟨ht, e⟩ | ⟨ht, e⟩ <;>
    simp [ht, e, hne]

/-- A word below 0x8000 has bit 15 clear. -/
theorem getLsbD_15_of_lt {w : Word} (h : w.toNat < 0x8000) : w.getLsbD 15 = false :=
  Nat.testBit_lt_two_pow h

/-- A word that `encode` gives is canonical (R63, R66). -/
theorem isCanonical_of_encode {i : Instr} {w : Word} (h : encode i = some w) : isCanonical w = true := by
  simp [isCanonical, decode_of_encode h, h]

/-- Settles O32: the two words with a payload have their number by `wordOf_toNat`; bit 15 is clear because the word is
below 0x8000 (`variantTag_statement`), and `isCanonical_of_encode` is the round trip. -/
theorem encodeFollowsTheOpcodeMap : Obligations.EncodeFollowsTheOpcodeMap := by
  refine ⟨fun v => ⟨wordOf 0#4 v, rfl, ?_⟩, rfl, rfl, rfl, rfl, fun t => ⟨wordOf 5#4 t, rfl, ?_⟩, rfl, rfl,
    fun i w h => ⟨getLsbD_15_of_lt ((variantTag_statement i).2 w h), isCanonical_of_encode h⟩⟩
  · simp [wordOf_toNat]
  · simp [wordOf_toNat]

end Sys2Proof.Machine

/-! The value stack seen at its ports (spec/41_value_stack.md R70 to R74): what a request leaves, and its two detectors. -/

namespace Sys2Proof.Machine

/-- The overflow detector is the comparison that `is_full` makes (R70). -/
@[simp] theorem stackPorts_push_overflow (v : Value) (S : ValueStack) : (stackPorts (.push v) S).overflow = isFull S := rfl

/-- The underflow detector is the comparison that `is_empty` makes (R71). -/
@[simp] theorem stackPorts_pop_underflow (S : ValueStack) : (stackPorts .pop S).underflow = isEmpty S := rfl

@[simp] theorem stackPorts_peek_underflow (S : ValueStack) : (stackPorts .peek S).underflow = isEmpty S := rfl

@[simp] theorem isEmpty_concat (S : ValueStack) (v : Value) : isEmpty (S ++ [v]) = false := by
  simp [isEmpty]

theorem stackAfter_push_of_full {v : Value} {S : ValueStack} (h : S.length = 256) : stackAfter (.push v) S = S := by
  simp only [stackAfter, push_of_full h]

theorem stackAfter_push_of_ne_full {v : Value} {S : ValueStack} (h : S.length ≠ 256) :
    stackAfter (.push v) S = S ++ [v] := by
  simp only [stackAfter, push_of_ne_full h]

@[simp] theorem stackAfter_pop_nil : stackAfter .pop [] = [] := rfl

@[simp] theorem stackAfter_pop_concat (S : ValueStack) (v : Value) : stackAfter .pop (S ++ [v]) = S := by
  simp only [stackAfter, pop_concat]

@[simp] theorem stackAfter_peek (S : ValueStack) : stackAfter .peek S = S := rfl

/-- Settles O39: `push` goes by whether the stack is full, `pop` and `peek` by whether it has a top, and
the detectors are the two capacity queries. -/
theorem stackOperationsFollowTheirRules : Obligations.StackOperationsFollowTheirRules := by
  refine fun S v => ⟨fun hfull => ?_, fun hfree => ?_, ?_, ?_, ?_, isFull_iff S⟩
  · exact ⟨push_of_full hfull, stackAfter_push_of_full hfull, (isFull_iff S).2 hfull⟩
  · have hne : S.length ≠ 256 := hfree.ne
    exact ⟨push_of_ne_full hne, stackAfter_push_of_ne_full hne, (isFull_eq_false_iff S).2 hne⟩
  · rintro rfl
    simp
  · rintro T rfl
    simp
  · rw [isEmpty_iff, List.length_eq_zero_iff]

end Sys2Proof.Machine

/-! The step's four cases in the normative order of its checks (spec/42_engine.md R80 to R85). -/

namespace Sys2Proof.Machine

/-- A running engine at the end of the program: a step halts cleanly, and only the flag changes (R82). -/
theorem step_of_fetch_none {s : State} (hf : s.fault = none) (hh : s.halted = false) (hw : fetch s = none) :
    step s = .next (setHalted s) := by
  simp [step, engineStep, runStep, hf, hh, hw]

/-- A word that decodes runs its instruction at the advanced `pc` (R84, R85). -/
theorem runWord_of_decode {w : Word} {i : Instr} (h : decode w = .ok i) (s : State) : runWord w s = exec i (advance s) := by
  simp [runWord, h]

/-- Settles O18: one lemma per outcome of the checks and the fetch (`step_of_halted`, `step_of_fetch_none`, `step_of_fetch`);
the fetched word then runs by what `decode` answers (`runWord_of_decode`, `runWord_eq_invalidOpcode_iff`). -/
theorem stepRunsTheDecodedInstruction : Obligations.StepRunsTheDecodedInstruction := by
  refine fun s hf => ⟨step_of_halted hf, fun hh hend => ?_, fun w i hh hw hi => ?_, fun w tag hh hw hinv => ?_⟩
  · exact step_of_fetch_none hf hh ((fetch_eq_none_iff s).2 hend)
  · exact (step_of_fetch hf hh hw).trans (runWord_of_decode hi s)
  · rw [step_of_fetch hf hh hw]
    exact runWord_eq_invalidOpcode_iff.2 hinv

end Sys2Proof.Machine

/-! `PushConst` and `Pop` (spec/43_stack_instructions.md R95, R96): their words, and what each does on every stack. -/

namespace Sys2Proof.Machine

/-- The immediate read as a signed number: its bit 31 is clear, so it is never negative (R47). -/
@[simp] theorem immediate_toInt (v : Payload) : (immediate v).toInt = v.toNat := by
  have hsign : 2 * (immediate v).toNat < 2 ^ 32 := by
    rw [immediate_toNat]
    omega
  rw [BitVec.toInt_eq_toNat_of_lt hsign, immediate_toNat]

/-- `Pop` carries no payload: its tag alone decodes to it (R96). -/
theorem decode_wordOf_pop (p : Payload) : decode (wordOf 1#4 p) = .ok .pop := by
  simp [decode]

theorem exec_pushConst_of_ne_full {p : Payload} {s : State} (h : s.stack.length ≠ 256) :
    exec (.pushConst p) s = .next (setStack (s.stack ++ [immediate p]) s) :=
  pushValue_of_ne_full h

theorem exec_pushConst_of_full {p : Payload} {s : State} (h : s.stack.length = 256) :
    exec (.pushConst p) s = raise .stackOverflow s :=
  pushValue_of_full h

theorem exec_pop_of_concat {s : State} {S : ValueStack} {v : Value} (h : s.stack = S ++ [v]) :
    exec .pop s = .next (setStack S s) :=
  popThen_of_concat h

theorem exec_pop_of_empty {s : State} (h : s.stack = []) : exec .pop s = raise .stackUnderflow s :=
  popThen_of_empty h

/-- Settles O1: a word of tag 0 is the canonical word of its `PushConst` (`decode_of_encode`), the pushed value is the
immediate (`immediate_toInt`), and the meaning goes by whether the stack is full. -/
theorem pushConstPushesPayload : Obligations.PushConstPushesPayload := by
  refine fun p => ⟨decode_of_encode rfl, fun s hfree => ?_, fun s hfull => ?_⟩
  · have hne : s.stack.length ≠ 256 := by omega
    exact ⟨immediate p, immediate_toInt p, exec_pushConst_of_ne_full hne⟩
  · exact ⟨latchFault .stackOverflow s, exec_pushConst_of_full hfull⟩

/-- Settles O2: the decoder reads the tag only (`decode_wordOf_pop`), and the meaning goes by whether the stack has a top. -/
theorem popDropsTop : Obligations.PopDropsTop := by
  refine ⟨decode_wordOf_pop, fun s S v htop => ?_, fun s hempty => ?_⟩
  · exact exec_pop_of_concat htop
  · exact ⟨latchFault .stackUnderflow s, exec_pop_of_empty hempty⟩

end Sys2Proof.Machine

/-! `Add`, `Sub` and `Mul` (spec/44_arithmetic.md R100 to R105): their words, the wrapped result, and the one shape they share. -/

namespace Sys2Proof.Machine

/-- The model's `wrap32` is the one R7 defines, on every integer. -/
theorem isWrap32_wrap32 (z : Int) : IsWrap32 z (wrap32 z) := by
  have hlow : -2147483648 ≤ (wrap32 z).toInt := BitVec.le_toInt (wrap32 z)
  have hhigh : (wrap32 z).toInt < 2147483648 := BitVec.toInt_lt
  have hcong : (4294967296 : Int) ∣ z - (wrap32 z).toInt := by
    rw [wrap32, BitVec.toInt_ofInt]
    exact Int.dvd_self_sub_bmod
  exact ⟨hlow, Int.le_of_lt_add_one hhigh, hcong⟩

/-- With two operands and a stack within its capacity the push fits (R18), and the result is the wrapped exact one (R105). -/
theorem arith_of_concat {op : AluOp} {s : State} {S : ValueStack} {b a : Value}
    (h : s.stack = S ++ [b, a]) (hcap : s.stack.length ≤ 256) :
    arith op s = .next (setStack (S ++ [alu op a b]) s) := by
  have htwo : S.length + 2 ≤ 256 := by simpa [h] using hcap
  have hfree : (setStack S s).stack.length ≠ 256 := by
    rw [setStack_stack]
    omega
  rw [arith, popTwoThen_of_concat h, pushValue_of_ne_full hfree]
  rfl

/-- The common functional half of the arithmetic instructions: the pushed value is `wrap32` of the exact result. -/
theorem arith_pushes_isWrap32 {op : AluOp} {s : State} {S : ValueStack} {b a : Value}
    (h : s.stack = S ++ [b, a]) (hcap : s.stack.length ≤ 256) :
    ∃ r : Value, IsWrap32 (aluExact op a.toInt b.toInt) r ∧ arith op s = .next (setStack (S ++ [r]) s) :=
  ⟨alu op a b, isWrap32_wrap32 _, arith_of_concat h hcap⟩

/-- The common fault of the arithmetic instructions: the first pop fails on an empty stack, the second on a single entry. -/
theorem arith_underflows (op : AluOp) {s : State} (h : s.stack.length ≤ 1) :
    ∃ e, arith op s = .fault (.stackUnderflow e) := by
  rcases stack_two_cases s.stack with hs | ⟨a, hs⟩ | ⟨S, b, a, hs⟩
  · exact ⟨latchFault .stackUnderflow s, popTwoThen_of_empty hs⟩
  · exact ⟨latchFault .stackUnderflow (setStack [] s), popTwoThen_of_single hs⟩
  · simp [hs] at h

theorem decode_wordOf_add (p : Payload) : decode (wordOf 2#4 p) = .ok .add := by
  simp [decode]

theorem decode_wordOf_sub (p : Payload) : decode (wordOf 3#4 p) = .ok .sub := by
  simp [decode]

theorem decode_wordOf_mul (p : Payload) : decode (wordOf 4#4 p) = .ok .mul := by
  simp [decode]

/-- Settles O3: `Add` is the arithmetic shape with `A + B`, so the two facts about `arith` are its result and its fault. -/
theorem addPushesWrappedSum : Obligations.AddPushesWrappedSum :=
  ⟨decode_wordOf_add, fun _ _ _ _ => arith_pushes_isWrap32 (op := .add), fun _ => arith_underflows .add⟩

/-- Settles O4: as for `Add`, with `B - A`, the second-popped operand minus the first-popped. -/
theorem subPushesWrappedDifference : Obligations.SubPushesWrappedDifference :=
  ⟨decode_wordOf_sub, fun _ _ _ _ => arith_pushes_isWrap32 (op := .sub), fun _ => arith_underflows .sub⟩

/-- Settles O5: as for `Add`, with `A * B`; the product is exact before it is wrapped. -/
theorem mulPushesWrappedProduct : Obligations.MulPushesWrappedProduct :=
  ⟨decode_wordOf_mul, fun _ _ _ _ => arith_pushes_isWrap32 (op := .mul), fun _ => arith_underflows .mul⟩

end Sys2Proof.Machine

/-! `JumpIfZero` and `Halt` (spec/45_control.md R110, R112): their words, and what each does in every state. -/

namespace Sys2Proof.Machine

theorem exec_jumpIfZero (t : Payload) (s : State) : exec (.jumpIfZero t) s = execJumpIfZero t s := rfl

/-- With a top to consume, the jump pops it and writes `pc` exactly when it was zero (R110); the target is the payload's number,
absolute and not checked (R48). -/
theorem exec_jumpIfZero_of_concat {t : Payload} {s : State} {S : ValueStack} {v : Value} (h : s.stack = S ++ [v]) :
    exec (.jumpIfZero t) s = .next (setPc (if v = 0#32 then t.toNat else s.pc) (setStack S s)) := by
  rw [exec_jumpIfZero, execJumpIfZero, popThen_of_concat h]
  by_cases hv : v = 0#32
  · rw [if_pos ((isZero_iff v).2 hv), if_pos hv, jumpTarget]
  · rw [if_neg (mt (isZero_iff v).1 hv), if_neg hv]
    rfl

theorem exec_jumpIfZero_of_empty {t : Payload} {s : State} (h : s.stack = []) :
    exec (.jumpIfZero t) s = raise .stackUnderflow s := by
  rw [exec_jumpIfZero, execJumpIfZero, popThen_of_empty h]

/-- Settles O6: a word of tag 5 is the canonical word of its `JumpIfZero` (`decode_of_encode`), and the meaning goes by whether
the stack has a top. -/
theorem jumpIfZeroPopsAndBranches : Obligations.JumpIfZeroPopsAndBranches := by
  refine fun t => ⟨decode_of_encode rfl, fun s S v htop => ?_, fun s hempty => ?_⟩
  · exact exec_jumpIfZero_of_concat htop
  · exact ⟨latchFault .stackUnderflow s, exec_jumpIfZero_of_empty hempty⟩

/-- `Halt` carries no payload: a word of tag 7, read off its number, decodes to it (R112). -/
theorem decode_eq_halt_of_tag {w : Word} (h : w.toNat / 4096 = 7) : decode w = .ok .halt := by
  rw [← tagOf_toNat] at h
  simp [decode, h]

theorem decode_wordOf_halt (p : Payload) : decode (wordOf 7#4 p) = .ok .halt :=
  decode_eq_halt_of_tag (by rw [← tagOf_toNat, tagOf_wordOf]; rfl)

theorem exec_halt (s : State) : exec .halt s = .next (setHalted s) := rfl

/-- Settles O8: the fetched word decodes to `Halt` by its tag (`decode_eq_halt_of_tag`), so the step sets the flag in the engine
whose `pc` the advance has already moved (`runWord_of_decode`). -/
theorem haltSetsHalted : Obligations.HaltSetsHalted := by
  refine ⟨decode_wordOf_halt, exec_halt, fun s w hf hh hw htag => ?_⟩
  calc step s = runWord w s := step_of_fetch hf hh hw
    _ = exec .halt (advance s) := runWord_of_decode (decode_eq_halt_of_tag htag) s
    _ = .next (setHalted (advance s)) := exec_halt (advance s)

end Sys2Proof.Machine

/-! `Print` and the output channel (spec/46_output.md R120, R121): who writes the output, and that nothing reads it. -/

namespace Sys2Proof.Machine

/-! ### `Print` -/

/-- The words of tag 6, and no others, are `Print`; it carries no payload (R120). -/
theorem decode_eq_print_iff {w : Word} : decode w = .ok .print ↔ w.toNat / 4096 = 6 := by
  rw [← tagOf_toNat]
  constructor
  · intro h
    rcases decode_cases w with ⟨-, e⟩ | ⟨-, e⟩ | ⟨-, e⟩ | ⟨-, e⟩ | ⟨-, e⟩ | ⟨-, e⟩ | ⟨ht, e⟩ | ⟨-, e⟩ | ⟨-, e⟩ <;>
      rw [e] at h <;> cases h
    simp [ht]
  · intro h
    simp [decode, h]

theorem decode_wordOf_print (p : Payload) : decode (wordOf 6#4 p) = .ok .print :=
  decode_eq_print_iff.2 (by rw [← tagOf_toNat, tagOf_wordOf]; rfl)

theorem exec_print (s : State) : exec .print s = execPrint s := rfl

theorem exec_print_of_concat {s : State} {S : ValueStack} {v : Value} (h : s.stack = S ++ [v]) :
    exec .print s = .next (emit v (setStack S s)) := by
  rw [exec_print, execPrint, popThen_of_concat h]

theorem exec_print_of_empty {s : State} (h : s.stack = []) : exec .print s = raise .stackUnderflow s := by
  rw [exec_print, execPrint, popThen_of_empty h]

/-- Settles O7: a word of tag 6 decodes to `Print` (`decode_wordOf_print`), and the meaning goes by whether the stack has a top;
the fault's engine keeps the output. -/
theorem printPopsAndEmits : Obligations.PrintPopsAndEmits := by
  refine ⟨decode_wordOf_print, fun s S v htop => ?_, fun s hempty => ?_⟩
  · exact exec_print_of_concat htop
  · exact ⟨latchFault .stackUnderflow s, exec_print_of_empty hempty, latchFault_out _ s⟩

/-! ### Who writes the output -/

/-- No instruction but `Print` writes the output. -/
theorem Effect.out_eq {i : Instr} {s t : State} (h : Effect i s t) (hi : i ≠ .print) : t.out = s.out := by
  cases i with
  | pushConst v =>
    obtain ⟨-, rfl⟩ := h
    rfl
  | pop =>
    obtain ⟨S, v, -, rfl⟩ := h
    rfl
  | add | sub | mul =>
    obtain ⟨S, b, a, -, -, rfl⟩ := h
    rfl
  | jumpIfZero g =>
    obtain ⟨S, v, -, rfl⟩ := h
    split <;> rfl
  | print => exact absurd rfl hi
  | halt =>
    obtain rfl : t = setHalted s := h
    rfl
  | invalid tag => exact h.elim

/-- A completing step of a running engine that fetches a `Print` has popped a value and appended it. -/
theorem step_print_appends {s t : State} {w : Word} (h : step s = .next t) (hh : s.halted = false) (hw : fetch s = some w)
    (htag : w.toNat / 4096 = 6) : ∃ S v, s.stack = S ++ [v] ∧ t.out = s.out ++ [v] := by
  obtain ⟨hf, -⟩ := step_eq_next h
  rw [step_of_fetch hf hh hw, runWord_of_decode (decode_eq_print_iff.2 htag)] at h
  obtain ⟨S, v, hS, rfl⟩ := exec_eq_next h
  exact ⟨S, v, hS, rfl⟩

/-- A completing step that executes no `Print` leaves the output alone. -/
theorem step_next_out_eq {s t : State} (h : step s = .next t)
    (hno : s.halted = true ∨ ∀ w, fetch s = some w → w.toNat / 4096 ≠ 6) : t.out = s.out := by
  obtain ⟨-, ⟨-, rfl⟩ | ⟨-, -, rfl⟩ | ⟨hh, w, i, hw, hi, he⟩⟩ := step_eq_next h
  · rfl
  · rfl
  · have htag : w.toNat / 4096 ≠ 6 := hno.resolve_left (by simp [hh]) w hw
    have hprint : i ≠ .print := by
      rintro rfl
      exact htag (decode_eq_print_iff.1 hi)
    exact (exec_eq_next he).out_eq hprint

/-- What the host gets of a fault reason: its kind and the output of the engine it holds (R131). -/
@[simp] theorem faultReport_faultReason (k : FaultKind) (e : State) : faultReport (faultReason k e) = (k, e.out) := by
  cases k <;> rfl

/-- A faulting instruction reports the output as it was (R121). -/
theorem exec_fault_out_eq {i : Instr} {s : State} {f : Fault} (h : exec i s = .fault f) : (faultReport f).2 = s.out := by
  rcases exec_cases i s with ⟨t, hn⟩ | ⟨k, S, hk⟩
  · rw [hn] at h
    cases h
  · rw [hk] at h
    cases h
    simp

theorem runWord_fault_out_eq {w : Word} {s : State} {f : Fault} (h : runWord w s = .fault f) : (faultReport f).2 = s.out := by
  unfold runWord at h
  split at h
  · exact (exec_fault_out_eq h).trans (advance_out s)
  · exact exec_fault_out_eq h

theorem step_fault_out_eq {s : State} {f : Fault} (h : step s = .fault f) : (faultReport f).2 = s.out := by
  obtain ⟨-, -, w, -, hrun⟩ := step_eq_fault h
  exact runWord_fault_out_eq hrun

/-! ### Nothing reads the output -/

/-- The engine with the values `o` emitted before everything it has emitted. -/
def prependOut (o : List Value) (s : State) : State := { s with out := o ++ s.out }

@[simp] theorem prependOut_out (o : List Value) (s : State) : (prependOut o s).out = o ++ s.out := rfl

theorem setStack_prependOut (S : ValueStack) (o : List Value) (s : State) :
    setStack S (prependOut o s) = prependOut o (setStack S s) := rfl

theorem emit_prependOut (v : Value) (o : List Value) (s : State) :
    emit v (prependOut o s) = prependOut o (emit v s) := by
  simp [emit, prependOut]

/-- The second result is the first one with the values `o` in front of its output: of the next state, or of what a fault reports (the
rest of a faulted engine is a free value, R131). -/
def OutPrepended (o : List Value) : Result → Result → Prop
  | .next t, r => r = .next (prependOut o t)
  | .fault f, r => ∃ g, r = .fault g ∧ faultReport g = ((faultReport f).1, o ++ (faultReport f).2)
  | .refused q, r => r = .refused q

/-- The meaning `m` does not read the output: other values in front of it come back in front of the result's output, and change nothing
else. -/
def OutBlind (m : State → Result) : Prop := ∀ (o : List Value) (s : State), OutPrepended o (m s) (m (prependOut o s))

theorem outBlind_raise (k : FaultKind) : OutBlind (raise k) := fun o s =>
  ⟨faultReason k (latchFault k (prependOut o s)), rfl, by simp⟩

theorem outBlind_pushValue (v : Value) : OutBlind (pushValue v) := by
  intro o s
  by_cases hfull : s.stack.length = 256
  · rw [pushValue_of_full hfull, pushValue_of_full (s := prependOut o s) hfull]
    exact outBlind_raise .stackOverflow o s
  · rw [pushValue_of_ne_full hfull, pushValue_of_ne_full (s := prependOut o s) hfull]
    rfl

/-- Popping does not read the output, so popping first keeps a meaning blind. -/
theorem outBlind_popThen {k : Value → State → Result} (hk : ∀ v, OutBlind (k v)) : OutBlind fun s => popThen s k := by
  intro o s
  dsimp only
  rcases stack_cases s.stack with hs | ⟨S, v, hs⟩
  · rw [popThen_of_empty hs, popThen_of_empty (s := prependOut o s) hs]
    exact outBlind_raise .stackUnderflow o s
  · rw [popThen_of_concat hs, popThen_of_concat (s := prependOut o s) hs, setStack_prependOut]
    exact hk v o (setStack S s)

theorem outBlind_arith (op : AluOp) : OutBlind (arith op) :=
  outBlind_popThen fun a => outBlind_popThen fun b => outBlind_pushValue (alu op a b)

theorem outBlind_execJumpIfZero (t : Payload) : OutBlind (execJumpIfZero t) := by
  unfold execJumpIfZero
  refine outBlind_popThen fun v o s => ?_
  split <;> rfl

/-- `Print` appends behind what has been emitted, so values in front stay in front. -/
theorem outBlind_execPrint : OutBlind execPrint := by
  unfold execPrint
  exact outBlind_popThen fun v o s => congrArg Host.Outcome.next (emit_prependOut v o s)

/-- No instruction reads the output (R121). -/
theorem outBlind_exec (i : Instr) : OutBlind (exec i) := by
  cases i with
  | pushConst v => exact outBlind_pushValue (immediate v)
  | pop => exact outBlind_popThen fun _ _ _ => rfl
  | add => exact outBlind_arith .add
  | sub => exact outBlind_arith .sub
  | mul => exact outBlind_arith .mul
  | jumpIfZero t => exact outBlind_execJumpIfZero t
  | print => exact outBlind_execPrint
  | halt => exact fun _ _ => rfl
  | invalid tag => exact outBlind_raise (.invalidOpcode tag)

theorem outBlind_runWord (w : Word) : OutBlind (runWord w) := by
  intro o s
  unfold runWord
  split
  · next i _ => exact outBlind_exec i o (advance s)
  · exact outBlind_exec (.invalid (tagOf w)) o s

/-- A faulted engine has no transition (R90). -/
theorem step_of_faulted {s : State} {k : FaultKind} (hf : s.fault = some k) : step s = .refused .engineFaulted := by
  simp [step, engineStep, hf]

/-- A step does not read the output: the checks and the fetch read other fields, and the fetched word is blind. -/
theorem outBlind_step : OutBlind step := by
  intro o s
  cases hf : s.fault with
  | some k =>
    rw [step_of_faulted hf, step_of_faulted (s := prependOut o s) hf]
    rfl
  | none =>
    cases hh : s.halted with
    | true =>
      rw [step_of_halted hf hh, step_of_halted (s := prependOut o s) hf hh]
      rfl
    | false =>
      cases hw : fetch s with
      | none =>
        rw [step_of_fetch_none hf hh hw, step_of_fetch_none (s := prependOut o s) hf hh hw]
        rfl
      | some w =>
        rw [step_of_fetch hf hh hw, step_of_fetch (s := prependOut o s) hf hh hw]
        exact outBlind_runWord w o s

/-- What a step answers, with the values `o` in front of the output of its engine. -/
theorem outPrepended_step {s : State} {r : Result} (o : List Value) (h : step s = r) :
    OutPrepended o r (step (prependOut o s)) :=
  h ▸ outBlind_step o s

/-- Settles O22: `step_print_appends` and `step_next_out_eq` say who writes the output, `step_fault_out_eq` that a fault keeps it, and
the last three clauses are `outPrepended_step` at each outcome. -/
theorem outputIsAppendOnlyAndNeverRead : Obligations.OutputIsAppendOnlyAndNeverRead :=
  ⟨fun _ _ h => ⟨fun _ => step_print_appends h, step_next_out_eq h⟩, fun _ _ => step_fault_out_eq,
    fun _ _ o h => outPrepended_step o h, fun _ _ o h => outPrepended_step o h, fun _ _ o h => outPrepended_step o h⟩

end Sys2Proof.Machine

/-! Which fault each instruction raises, and where (spec/60_exceptions.md R127, R128): the fault kinds of an instruction read off the
depth of the stack it finds. -/

namespace Sys2Proof.Machine

/-- The result is a fault of kind `κ`. -/
def Raises (κ : FaultKind) (r : Result) : Prop := ∃ e, r = .fault (faultReason κ e)

@[simp] theorem not_raises_next (κ : FaultKind) (t : State) : ¬ Raises κ (.next t) := fun ⟨_, h⟩ => nomatch h

@[simp] theorem raises_raise {κ k : FaultKind} {s : State} : Raises κ (raise k s) ↔ κ = k := by
  constructor
  · rintro ⟨e, h⟩
    have hreason : faultReason k (latchFault k s) = faultReason κ e := Host.Outcome.fault.inj h
    have hreport := congrArg (fun f => (faultReport f).1) hreason
    simpa using hreport.symm
  · rintro rfl
    exact ⟨latchFault κ s, rfl⟩

/-- A push raises `StackOverflow` on a full stack, and nothing else (R70). -/
theorem raises_pushValue {κ : FaultKind} {v : Value} {s : State} :
    Raises κ (pushValue v s) ↔ s.stack.length = 256 ∧ κ = .stackOverflow := by
  by_cases hfull : s.stack.length = 256
  · simp [pushValue_of_full hfull, hfull]
  · simp [pushValue_of_ne_full hfull, hfull]

/-- An instruction that pops once and then completes raises `StackUnderflow` on an empty stack, and nothing else (R71). -/
theorem raises_popThen {κ : FaultKind} {s : State} {k : Value → State → Result} (hk : ∀ v s', ∃ t, k v s' = .next t) :
    Raises κ (popThen s k) ↔ s.stack.length = 0 ∧ κ = .stackUnderflow := by
  rcases stack_cases s.stack with hs | ⟨S, v, hs⟩
  · simp [popThen_of_empty hs, hs]
  · obtain ⟨t, ht⟩ := hk v (setStack S s)
    simp [popThen_of_concat hs, ht, hs]

/-- Within the capacity the arithmetic instructions raise `StackUnderflow` at one of their two pops, and nothing else: the slot their
push needs has just been freed. -/
theorem raises_arith {κ : FaultKind} {op : AluOp} {s : State} (hcap : s.stack.length ≤ 256) :
    Raises κ (arith op s) ↔ s.stack.length ≤ 1 ∧ κ = .stackUnderflow := by
  rcases stack_two_cases s.stack with hs | ⟨a, hs⟩ | ⟨S, b, a, hs⟩
  · simp [arith, popTwoThen_of_empty hs, hs]
  · simp [arith, popTwoThen_of_single hs, hs]
  · simp [arith_of_concat hs hcap, hs]

/-- The fault kinds an instruction raises on a stack of `n` entries. -/
def FaultsAtDepth : Instr → Nat → FaultKind → Prop
  | .pushConst _, n, κ => n = 256 ∧ κ = .stackOverflow
  | .pop, n, κ | .jumpIfZero _, n, κ | .print, n, κ => n = 0 ∧ κ = .stackUnderflow
  | .add, n, κ | .sub, n, κ | .mul, n, κ => n ≤ 1 ∧ κ = .stackUnderflow
  | .halt, _, _ => False
  | .invalid tag, _, κ => κ = .invalidOpcode tag

/-- Everything `exec` can do when it faults, and that it faults there: the counterpart of `exec_eq_next`. -/
theorem raises_exec {i : Instr} {s : State} {κ : FaultKind} (hcap : s.stack.length ≤ 256) :
    Raises κ (exec i s) ↔ FaultsAtDepth i s.stack.length κ := by
  cases i with
  | pushConst v => exact raises_pushValue
  | pop | print => exact raises_popThen fun _ _ => ⟨_, rfl⟩
  | add | sub | mul => exact raises_arith hcap
  | jumpIfZero t =>
    rw [exec_jumpIfZero, execJumpIfZero]
    exact raises_popThen fun _ _ => ⟨_, rfl⟩
  | halt => exact iff_false_intro (not_raises_next κ _)
  | invalid tag => exact raises_raise

/-- Settles O13: of the rows of `FaultsAtDepth` only `PushConst`'s has the kind `StackOverflow`. -/
theorem overflowOnlyFromPushConst : Obligations.OverflowOnlyFromPushConst := by
  intro i s hcap
  calc (∃ e, exec i s = .fault (.stackOverflow e))
    _ ↔ FaultsAtDepth i s.stack.length .stackOverflow := raises_exec (κ := .stackOverflow) hcap
    _ ↔ (∃ v, i = .pushConst v) ∧ s.stack.length = 256 := by cases i <;> simp [FaultsAtDepth]

/-- Settles O14: the rows of `FaultsAtDepth` with the kind `StackUnderflow` are those of the six popping instructions. -/
theorem underflowExactly : Obligations.UnderflowExactly := by
  intro i s hcap
  calc (∃ e, exec i s = .fault (.stackUnderflow e))
    _ ↔ FaultsAtDepth i s.stack.length .stackUnderflow := raises_exec (κ := .stackUnderflow) hcap
    _ ↔ _ := by cases i <;> simp [FaultsAtDepth]

end Sys2Proof.Machine

/-! Which step raises `InvalidOpcode` (spec/60_exceptions.md R126): the fetch it has made, and bit 15 of the fetched word. -/

namespace Sys2Proof.Machine

/-- The tags 8..15 are those of the words with bit 15 set (R51). -/
theorem tagOf_invalid_iff_getLsbD (w : Word) : 8 ≤ (tagOf w).toNat ↔ w.getLsbD 15 = true := by
  have hmsb : w.getLsbD 15 = decide (0x8000 ≤ w.toNat) := (BitVec.msb_eq_getLsbD_last w).symm.trans (BitVec.msb_eq_decide w)
  rw [tagOf_invalid_iff, hmsb, decide_eq_true_iff]

/-- `decode` fails exactly on bit 15, and records the word's tag (R126). -/
theorem decode_eq_invalidOpcode_iff {w : Word} {tag : Tag} :
    decode w = .error (.invalidOpcode tag) ↔ w.getLsbD 15 = true ∧ tag = tagOf w := by
  rw [decode_eq_error_iff, tagOf_invalid_iff_getLsbD, FaultKind.invalidOpcode.injEq]

/-- A step of an engine that has not faulted faults exactly where it fetches a word whose run faults. -/
theorem step_eq_fault_iff {s : State} {f : Fault} (hf : s.fault = none) :
    step s = .fault f ↔ s.halted = false ∧ ∃ w, fetch s = some w ∧ runWord w s = .fault f := by
  constructor
  · exact fun h => (step_eq_fault h).2
  · rintro ⟨hh, w, hw, hrun⟩
    exact (step_of_fetch hf hh hw).trans hrun

/-- Settles O15: the fault is that of the fetched word (`step_eq_fault_iff`), whose run ends with `InvalidOpcode` exactly where `decode`
does (`runWord_eq_invalidOpcode_iff`), which is bit 15 (`decode_eq_invalidOpcode_iff`). -/
theorem invalidOpcodeExactly : Obligations.InvalidOpcodeExactly := by
  intro s tag hf
  have hword (w : Word) :
      (∃ e, runWord w s = .fault (.invalidOpcode tag e)) ↔ w.getLsbD 15 = true ∧ tag = tagOf w :=
    runWord_eq_invalidOpcode_iff.trans decode_eq_invalidOpcode_iff
  simp only [step_eq_fault_iff hf]
  constructor
  · rintro ⟨e, hh, w, hw, hrun⟩
    exact ⟨hh, w, hw, (hword w).1 ⟨e, hrun⟩⟩
  · rintro ⟨hh, w, hw, hbit⟩
    obtain ⟨e, hrun⟩ := (hword w).2 hbit
    exact ⟨e, hh, w, hw, hrun⟩

end Sys2Proof.Machine

/-! What a completing instruction and a completing step leave unchanged (spec/10_state.md, spec/41_value_stack.md R77), and the
invariant of a run that follows (R13, R18, R75). -/

namespace Sys2Proof.Machine

/-! ### The frame of an instruction -/

/-- No instruction writes program memory or the fault status. -/
theorem Effect.program_and_fault_eq {i : Instr} {s t : State} (h : Effect i s t) :
    t.program = s.program ∧ t.fault = s.fault := by
  cases i with
  | pushConst v =>
    obtain ⟨-, rfl⟩ := h
    simp
  | pop | print =>
    obtain ⟨S, v, -, rfl⟩ := h
    simp
  | add | sub | mul =>
    obtain ⟨S, b, a, -, -, rfl⟩ := h
    simp
  | jumpIfZero g =>
    obtain ⟨S, v, -, rfl⟩ := h
    split <;> simp
  | halt =>
    obtain rfl : t = setHalted s := h
    simp
  | invalid tag => exact h.elim

/-- The `pc` an instruction leaves when it runs in `s`: only `JumpIfZero` writes it, when a zero is on top (R110). -/
def pcAfter : Instr → State → Nat
  | .jumpIfZero g, s => if s.stack.getLast? = some 0#32 then g.toNat else s.pc
  | _, s => s.pc

theorem pcAfter_of_ne_jump {i : Instr} (hi : ∀ g, i ≠ .jumpIfZero g) (s : State) : pcAfter i s = s.pc := by
  cases i with
  | jumpIfZero g => exact absurd rfl (hi g)
  | _ => rfl

theorem Effect.pc_eq {i : Instr} {s t : State} (h : Effect i s t) : t.pc = pcAfter i s := by
  cases i with
  | pushConst v =>
    obtain ⟨-, rfl⟩ := h
    rfl
  | pop | print =>
    obtain ⟨S, v, -, rfl⟩ := h
    rfl
  | add | sub | mul =>
    obtain ⟨S, b, a, -, -, rfl⟩ := h
    rfl
  | jumpIfZero g =>
    obtain ⟨S, v, hs, rfl⟩ := h
    by_cases hv : v = 0#32 <;> simp [pcAfter, hs, hv, jumpTarget]
  | halt =>
    obtain rfl : t = setHalted s := h
    rfl
  | invalid tag => exact h.elim

/-- Every instruction replaces its operands, the top entries of the stack, by its results (R77's table). -/
theorem Effect.replaces_operands {i : Instr} {s t : State} (h : Effect i s t) :
    ∃ T operands results : ValueStack, s.stack = T ++ operands ∧ t.stack = T ++ results ∧
      operands.length = popCount i ∧ results.length = pushCount i := by
  cases i with
  | pushConst v =>
    obtain ⟨-, rfl⟩ := h
    exact ⟨s.stack, [], [immediate v], by simp, rfl, rfl, rfl⟩
  | pop | print =>
    obtain ⟨S, v, hs, rfl⟩ := h
    exact ⟨S, [v], [], hs, by simp, rfl, rfl⟩
  | add | sub | mul =>
    obtain ⟨S, b, a, hs, -, rfl⟩ := h
    exact ⟨S, [b, a], [alu _ a b], hs, rfl, rfl, rfl⟩
  | jumpIfZero g =>
    obtain ⟨S, v, hs, rfl⟩ := h
    exact ⟨S, [v], [], hs, by split <;> simp, rfl, rfl⟩
  | halt =>
    obtain rfl : t = setHalted s := h
    exact ⟨s.stack, [], [], by simp, by simp, rfl, rfl⟩
  | invalid tag => exact h.elim

/-- Settles O11: the effect of the instruction writes no program word and no fault status (`Effect.program_and_fault_eq`); each of
the other three fields has its one writer. -/
theorem instructionFrame : Obligations.InstructionFrame := by
  intro i s t h
  have heffect : Effect i s t := exec_eq_next h
  obtain ⟨hprogram, hfault⟩ := heffect.program_and_fault_eq
  refine ⟨fun k => by rw [hprogram], by rw [hprogram], hfault, fun hi => ?_, heffect.out_eq, fun hi => ?_⟩
  · simpa [hi] using heffect.halted_iff
  · rw [heffect.pc_eq, pcAfter_of_ne_jump hi]

/-- Settles O12: the stack is split into the entries that stay and the operands (`Effect.replaces_operands`). -/
theorem instructionStackFrame : Obligations.InstructionStackFrame := by
  intro i s t h
  obtain ⟨T, operands, results, hs, ht, hpop, hpush⟩ := (exec_eq_next h).replaces_operands
  rw [hs, ht, List.length_append, List.length_append, hpop, hpush]
  refine ⟨by omega, by omega, fun k hk => ?_⟩
  have hlow : k < T.length := by omega
  rw [List.getElem?_append_left hlow, List.getElem?_append_left hlow]

/-! ### The invariant of a running engine -/

/-- Only `PushConst` deepens the stack, and it has found a free slot: the stack stays within its capacity (R75). -/
theorem Effect.stack_length_le {i : Instr} {s t : State} (h : Effect i s t) (hcap : s.stack.length ≤ 256) :
    t.stack.length ≤ 256 := by
  have hfree : pushCount i ≤ popCount i ∨ s.stack.length ≠ 256 := by
    cases i with
    | pushConst v => exact .inr h.1
    | _ => exact .inl (by simp [pushCount, popCount])
  obtain ⟨T, operands, results, hs, ht, hpop, hpush⟩ := h.replaces_operands
  have hone : pushCount i ≤ popCount i + 1 := by
    cases i <;> simp [pushCount, popCount]
  simp only [hs, ht, List.length_append, hpop, hpush] at hcap hfree ⊢
  omega

/-- `pc` stays where it was or goes to a target, which is at most 4095 (R13). -/
theorem pcAfter_le (i : Instr) (s : State) : pcAfter i s ≤ max s.pc 4095 := by
  cases i with
  | jumpIfZero g =>
    have hg : g.toNat ≤ 4095 := jumpTarget_le g
    rw [pcAfter]
    split <;> omega
  | _ => exact le_max_left _ _

/-- Executing an instruction keeps the invariant. -/
theorem Effect.engineInv {i : Instr} {s t : State} (h : Effect i s t) (hs : EngineInv s) : EngineInv t := by
  obtain ⟨hprogram, hfault⟩ := h.program_and_fault_eq
  refine ⟨h.stack_length_le hs.stack_le, ?_, hfault.trans hs.no_fault⟩
  have hpc : pcAfter i s ≤ max s.pc 4095 := pcAfter_le i s
  have hbound : s.pc ≤ max s.program.length 4095 := hs.pc_le
  rw [h.pc_eq, hprogram]
  omega

/-- The advance keeps the invariant, because it follows a fetch and so starts before the end of the program (R82, R85). -/
theorem engineInv_advance {s : State} {w : Word} (hs : EngineInv s) (hw : fetch s = some w) : EngineInv (advance s) := by
  have hlt : s.pc < s.program.length := by
    simpa [hw] using (fetch_eq_none_iff s).not
  refine ⟨hs.stack_le, ?_, hs.no_fault⟩
  rw [advance_pc, advance_program]
  omega

theorem engineInv_setHalted {s : State} (hs : EngineInv s) : EngineInv (setHalted s) :=
  ⟨hs.stack_le, hs.pc_le, hs.no_fault⟩

/-- Settles O26: of the three things a completing step can do (`step_eq_next`), the first two leave the counters alone, and the third
is an advance followed by the effect of an instruction. -/
theorem everyStepKeepsEngineInv : Obligations.EveryStepKeepsEngineInv := by
  intro s t hs h
  obtain ⟨-, ⟨-, rfl⟩ | ⟨-, -, rfl⟩ | ⟨-, w, i, hw, -, he⟩⟩ := step_eq_next h
  · exact hs
  · exact engineInv_setHalted hs
  · exact (exec_eq_next he).engineInv (engineInv_advance hs hw)

/-! ### Runs -/

/-- No step writes program memory or the fault status (R33, R90). -/
theorem step_next_program_and_fault_eq {s t : State} (h : step s = .next t) : t.program = s.program ∧ t.fault = s.fault := by
  obtain ⟨-, ⟨-, rfl⟩ | ⟨-, -, rfl⟩ | ⟨-, w, i, -, -, he⟩⟩ := step_eq_next h
  · exact ⟨rfl, rfl⟩
  · exact ⟨rfl, rfl⟩
  · exact (exec_eq_next he).program_and_fault_eq

/-- A step that changes the output has executed a `Print` (R121). -/
theorem print_of_step_out_ne {s t : State} (h : step s = .next t) (hne : t.out ≠ s.out) :
    s.halted = false ∧ ∃ w, fetch s = some w ∧ w.toNat / 4096 = 6 := by
  have hprint : ¬ (s.halted = true ∨ ∀ w, fetch s = some w → w.toNat / 4096 ≠ 6) := mt (step_next_out_eq h) hne
  push Not at hprint
  exact hprint.imp_left Bool.eq_false_iff.2

/-- A step keeps all that has been emitted and at most appends to it (R121). -/
theorem step_next_out_append {s t : State} (h : step s = .next t) : ∃ o, t.out = s.out ++ o := by
  by_cases hout : t.out = s.out
  · exact ⟨[], by simp [hout]⟩
  · obtain ⟨hh, w, hw, htag⟩ := print_of_step_out_ne h hout
    obtain ⟨S, v, -, happend⟩ := step_print_appends h hh hw htag
    exact ⟨[v], happend⟩

/-- A step in the Halted state changes nothing (R81). -/
theorem step_next_eq_of_halted {s t : State} (h : step s = .next t) (hh : s.halted = true) : t = s := by
  obtain ⟨hf, -⟩ := step_eq_next h
  exact Host.Outcome.next.inj (h.symm.trans (step_of_halted hf hh))

theorem engineInv_construct (P : List Word) : EngineInv (construct P) :=
  ⟨Nat.zero_le _, Nat.zero_le _, rfl⟩

/-- Settles O25: the reset values are the fields of `construct P`, and `State.reset` is `construct []`. -/
theorem constructionLeavesResetState : Obligations.ConstructionLeavesResetState := fun P =>
  ⟨rfl, rfl, rfl, rfl, rfl, rfl, engineInv_construct P, engineInv_construct []⟩

/-- Every reachable state meets the invariant and holds the program the engine was constructed with. -/
theorem Reachable.engineInv_and_program_eq {P : List Word} {s : State} (h : Reachable P s) :
    EngineInv s ∧ s.program = P := by
  induction h with
  | construct => exact ⟨engineInv_construct P, rfl⟩
  | step _ hstep ih =>
    obtain ⟨hinv, hprogram⟩ := ih
    exact ⟨everyStepKeepsEngineInv _ _ hinv hstep, (step_next_program_and_fault_eq hstep).1.trans hprogram⟩

/-- Settles O27: the first two parts by induction along the run, the last two hold of every completing step. -/
theorem reachableStatesMeetInv : Obligations.ReachableStatesMeetInv := by
  intro P s hs
  obtain ⟨hinv, hprogram⟩ := hs.engineInv_and_program_eq
  exact ⟨hinv, hprogram, fun t h => ⟨step_next_out_append h, step_next_eq_of_halted h⟩⟩

/-- Settles O28: both numbers are at most `max(LEN, 4095)`, which the width holds, so no bit is cut off. -/
theorem finiteProgramCounterIsExact : Obligations.FiniteProgramCounterIsExact := by
  intro s width hs hwidth
  have hpc : s.pc < 2 ^ width := hs.pc_le.trans_lt hwidth
  have hlen : s.program.length < 2 ^ width := (le_max_left _ 4095).trans_lt hwidth
  simp [enginePorts, progLen, Nat.mod_eq_of_lt hpc, Nat.mod_eq_of_lt hlen]

end Sys2Proof.Machine

/-! Faults (spec/60_exceptions.md): which engine a faulting step leaves (R131), where a step faults at all (R129, R148), and that no
step follows (R90). -/

namespace Sys2Proof.Machine

/-! ### The engine a fault leaves -/

@[simp] theorem faultedEngine_faultReason (k : FaultKind) (e : State) : faultedEngine (faultReason k e) = e := by
  cases k <;> rfl

/-- Everything a faulting step leaves: a kind latched in an engine that differs from `s` in `pc` and stack only (R131). -/
theorem step_fault_latches {s : State} {f : Fault} (h : step s = .fault f) :
    ∃ k s', f = faultReason k (latchFault k s') ∧ s'.program = s.program ∧ s'.out = s.out := by
  obtain ⟨-, -, w, -, hrun⟩ := step_eq_fault h
  have hexec : ∃ i s₁, exec i s₁ = .fault f ∧ s₁.program = s.program ∧ s₁.out = s.out := by
    unfold runWord at hrun
    split at hrun
    · next i _ => exact ⟨i, advance s, hrun, rfl, rfl⟩
    · exact ⟨.invalid (tagOf w), s, hrun, rfl, rfl⟩
  obtain ⟨i, s₁, he, hprogram, hout⟩ := hexec
  rcases exec_cases i s₁ with ⟨t, hnext⟩ | ⟨k, S, hraise⟩
  · exact nomatch hnext.symm.trans he
  · exact ⟨k, setStack S s₁, (Host.Outcome.fault.inj (hraise.symm.trans he)).symm, hprogram, hout⟩

/-- The kind a faulting step reports is the one latched in the engine it leaves (R23, R89). -/
theorem step_fault_status {s : State} {f : Fault} (h : step s = .fault f) :
    (faultedEngine f).fault = some (faultReport f).1 := by
  obtain ⟨k, s', rfl, -, -⟩ := step_fault_latches h
  simp

theorem step_fault_program_eq {s : State} {f : Fault} (h : step s = .fault f) :
    (faultedEngine f).program = s.program := by
  obtain ⟨k, s', rfl, hprogram, -⟩ := step_fault_latches h
  simpa using hprogram

/-- A step reports legal kinds only: the tag of an `InvalidOpcode` is that of a word which `decode` refuses (R24, R126). -/
theorem step_fault_legal {s : State} {f : Fault} (h : step s = .fault f) : (faultReport f).1.legal = true := by
  obtain ⟨-, -, w, -, hrun⟩ := step_eq_fault h
  cases f with
  | invalidOpcode tag e =>
    obtain ⟨htag, ⟨⟩⟩ := decode_eq_error_iff.1 (runWord_eq_invalidOpcode_iff.1 ⟨e, hrun⟩)
    exact decide_eq_true htag
  | stackOverflow e => rfl
  | stackUnderflow e => rfl

/-- Settles O16: the engine left has the reported kind latched (`step_fault_status`), so that it has no transition
(`step_of_faulted`). -/
theorem faultingStepLatchesAndStops : Obligations.FaultingStepLatchesAndStops := by
  intro s f h
  have hstatus : (faultedEngine f).fault = some (faultReport f).1 := step_fault_status h
  exact ⟨hstatus, step_fault_legal h, step_fault_out_eq h, step_fault_program_eq h, step_of_faulted hstatus⟩

/-- Settles O44: the arm of the row INVALID is `raise`, in every state. -/
theorem invalidRowAlwaysFaults : Obligations.InvalidRowAlwaysFaults := fun tag s =>
  ⟨latchFault (.invalidOpcode tag) s, raise_invalidOpcode tag s, latchFault_fault _ s, latchFault_out _ s⟩

/-! ### Where a step completes -/

/-- An instruction completes exactly where it raises no fault. -/
theorem exec_completes_iff_not_raises {i : Instr} {s : State} :
    (∃ t, exec i s = .next t) ↔ ∀ κ, ¬ Raises κ (exec i s) := by
  rcases exec_cases i s with ⟨t, h⟩ | ⟨k, S, h⟩
  · simp [h]
  · simp [h]

/-- The depth R77 asks for is the one at which no row of `FaultsAtDepth` applies. -/
theorem depthOk_iff_not_faultsAtDepth (i : Instr) {n : Nat} (hcap : n ≤ 256) :
    depthOk i n = true ↔ ∀ κ, ¬ FaultsAtDepth i n κ := by
  cases i with
  | halt | invalid => simp [FaultsAtDepth, depthOk]
  | _ =>
    simp only [FaultsAtDepth, depthOk, decide_eq_true_iff, not_and', forall_eq]
    omega

/-- Within the capacity an instruction completes exactly with the depth R77 asks for. -/
theorem exec_completes_iff {i : Instr} {s : State} (hcap : s.stack.length ≤ 256) :
    (∃ t, exec i s = .next t) ↔ depthOk i s.stack.length = true := by
  simp only [exec_completes_iff_not_raises, raises_exec hcap, depthOk_iff_not_faultsAtDepth i hcap]

/-- The row of a word that decodes is its instruction (R49). -/
theorem decodeRow_of_decode {w : Word} {i : Instr} (h : decode w = .ok i) : decodeRow w = i := by
  simp only [decodeRow, h]

/-- The row of a word that does not decode is the row INVALID with its tag (R51). -/
theorem decodeRow_of_error {w : Word} {k : FaultKind} (h : decode w = .error k) : decodeRow w = .invalid (tagOf w) := by
  simp only [decodeRow, h]

/-- A word that does not decode runs the row INVALID, in the engine as it was fetched (R84). -/
theorem runWord_of_error {w : Word} {k : FaultKind} (h : decode w = .error k) (s : State) :
    runWord w s = exec (.invalid (tagOf w)) s := by
  simp only [runWord, h]

/-- A fetched word completes exactly with the depth its row of the opcode table asks for; the row INVALID never does. -/
theorem runWord_completes_iff {w : Word} {s : State} (hcap : s.stack.length ≤ 256) :
    (∃ t, runWord w s = .next t) ↔ depthOk (decodeRow w) s.stack.length = true := by
  cases h : decode w with
  | ok i =>
    rw [runWord_of_decode h, decodeRow_of_decode h]
    exact exec_completes_iff (s := advance s) hcap
  | error k =>
    rw [runWord_of_error h, decodeRow_of_error h]
    exact exec_completes_iff hcap

theorem step_completes_iff {s : State} (hf : s.fault = none) (hcap : s.stack.length ≤ 256) :
    (∃ t, step s = .next t) ↔ stepSafe s = true := by
  cases hh : s.halted with
  | true => simp [step_of_halted hf hh, stepSafe, hh]
  | false =>
    cases hw : fetch s with
    | none => simp [step_of_fetch_none hf hh hw, stepSafe, hw]
    | some w => simp [step_of_fetch hf hh hw, stepSafe, hh, hw, runWord_completes_iff hcap]

/-- A step of an engine that has not faulted faults exactly where it does not complete: it is not refused. -/
theorem step_faults_iff_not_completes {s : State} (hf : s.fault = none) :
    (∃ f, step s = .fault f) ↔ ¬ ∃ t, step s = .next t := by
  cases h : step s with
  | next t => simp
  | fault f => simp
  | refused r =>
    obtain ⟨⟨k, hk⟩, -⟩ := step_eq_refused h
    simp [hf] at hk

/-- Settles O17: `step_completes_iff`, and the faults are the other case. -/
theorem stepCompletesExactlyWhenSafe : Obligations.StepCompletesExactlyWhenSafe := by
  refine fun s hf hcap => ⟨step_completes_iff hf hcap, ?_⟩
  rw [step_faults_iff_not_completes hf, step_completes_iff hf hcap, Bool.not_eq_true]

/-! ### The status signals -/

/-- The codes of `fault_kind` tell the four statuses apart (R92, decision D10). -/
theorem faultKindCode_iff (fault : Option FaultKind) :
    (faultKindCode fault = 0#2 ↔ fault = none) ∧
    (faultKindCode fault = 1#2 ↔ ∃ tag, fault = some (.invalidOpcode tag)) ∧
    (faultKindCode fault = 2#2 ↔ fault = some .stackOverflow) ∧
    (faultKindCode fault = 3#2 ↔ fault = some .stackUnderflow) := by
  rcases fault with _ | _ | _ | _ <;> simp [faultKindCode]

theorem faultTagCode_eq_some_iff {fault : Option FaultKind} {tag : Tag} :
    faultTagCode fault = some tag ↔ fault = some (.invalidOpcode tag) := by
  rcases fault with _ | _ | _ | _ <;> simp [faultTagCode]

/-- Settles O45: the signals are functions of the fault status and the stack; `step_fault_status` and
`step_next_program_and_fault_eq` give the fault status after a step. -/
theorem enginePortsShowTheStatus : Obligations.EnginePortsShowTheStatus := by
  refine fun width => ⟨fun s => ?_, fun s tag e h => ?_, fun s e h => ?_, fun s e h => ?_, fun s t h => ?_⟩
  · obtain ⟨h0, h1, h2, h3⟩ := faultKindCode_iff s.fault
    refine ⟨h0, h1, h2, h3, fun tag => faultTagCode_eq_some_iff, fun v => List.getLast?_eq_some_iff, ?_, ?_, isFull_iff s.stack⟩
    · exact List.getLast?_eq_none_iff.trans (isEmpty_iff s.stack).symm
    · exact (isEmpty_iff s.stack).trans List.length_eq_zero_iff.symm
  · have hstatus : e.fault = some (.invalidOpcode tag) := step_fault_status h
    simp [enginePorts, hstatus, faultKindCode, faultTagCode]
  · have hstatus : e.fault = some .stackOverflow := step_fault_status h
    simp [enginePorts, hstatus, faultKindCode]
  · have hstatus : e.fault = some .stackUnderflow := step_fault_status h
    simp [enginePorts, hstatus, faultKindCode]
  · have hstatus : t.fault = none := (step_next_program_and_fault_eq h).2.trans (step_eq_next h).1
    simp [enginePorts, hstatus, faultKindCode]

end Sys2Proof.Machine

/-! The step and its driver: `pc` after a step (spec/10_state.md R14), the output port (R124), and the caller's loop of
steps (R86). -/

namespace Sys2Proof.Machine

/-! ### `pc` after a step -/

/-- A word of tag 5 decodes to `JumpIfZero` of its payload (R49). -/
theorem decode_eq_jumpIfZero_of_tag {w : Word} (h : w.toNat / 4096 = 5) : decode w = .ok (.jumpIfZero (payloadOf w)) := by
  rw [← tagOf_toNat] at h
  simp [decode, h]

/-- `pcAfter` of a decoded instruction, read off the word: tag 5 is the only jump, and its target is the payload. -/
theorem pcAfter_of_decode {w : Word} {i : Instr} (h : decode w = .ok i) (s : State) :
    pcAfter i s = if w.toNat / 4096 = 5 ∧ s.stack.getLast? = some 0#32 then w.toNat % 4096 else s.pc := by
  rw [← tagOf_toNat, ← payloadOf_toNat]
  rcases decode_cases w with ⟨ht, e⟩ | ⟨ht, e⟩ | ⟨ht, e⟩ | ⟨ht, e⟩ | ⟨ht, e⟩ | ⟨ht, e⟩ | ⟨ht, e⟩ | ⟨ht, e⟩ | ⟨ht, e⟩ <;>
    rw [e] at h <;> cases h <;> simp [pcAfter, ht]

/-- Settles O20: a step that fetches nothing leaves `pc` alone, and any other runs its instruction at the advanced `pc`
(`Effect.pc_eq`). -/
theorem programCounterAfterStep : Obligations.ProgramCounterAfterStep := by
  intro s t h
  obtain ⟨-, ⟨hh, rfl⟩ | ⟨hh, hw, rfl⟩ | ⟨hh, w, i, hw, hi, he⟩⟩ := step_eq_next h
  · simp [hh]
  · have hend : s.program.length ≤ s.pc := (fetch_eq_none_iff s).1 hw
    simp [hend]
  · have hlt : ¬ s.program.length ≤ s.pc := by simp [← fetch_eq_none_iff, hw]
    refine ⟨by simp [hh], fun hend => absurd hend hlt, fun w' _ hw' => ?_⟩
    obtain rfl : w = w' := Option.some.inj (hw.symm.trans hw')
    exact (exec_eq_next he).pc_eq.trans (pcAfter_of_decode hi (advance s))

/-- The step that takes a jump: the value is consumed, and `pc` is at the payload's number (R110). -/
theorem step_of_taken_jump {s : State} {w : Word} {S : ValueStack} (hf : s.fault = none) (hh : s.halted = false)
    (hw : fetch s = some w) (htag : w.toNat / 4096 = 5) (hs : s.stack = S ++ [0#32]) :
    step s = .next (setPc (w.toNat % 4096) (setStack S (advance s))) := by
  rw [← payloadOf_toNat]
  calc step s = runWord w s := step_of_fetch hf hh hw
    _ = exec (.jumpIfZero (payloadOf w)) (advance s) := runWord_of_decode (decode_eq_jumpIfZero_of_tag htag) s
    _ = _ := exec_jumpIfZero_of_concat (s := advance s) hs

/-- Settles O23: the jump is performed without a bounds check (`step_of_taken_jump`), and at its target the next fetch finds
no word. -/
theorem jumpBeyondEndHaltsCleanly : Obligations.JumpBeyondEndHaltsCleanly := by
  intro s w S hf hh hw htag hs hend
  have hfetch : fetch (setPc (w.toNat % 4096) (setStack S (advance s))) = none := (fetch_eq_none_iff _).2 hend
  exact ⟨_, step_of_taken_jump hf hh hw htag hs, hh, rfl, rfl, step_of_fetch_none hf hh hfetch⟩

/-! ### The output port -/

/-- The step that executes a `Print`: the top is consumed and emitted (R120). -/
theorem step_of_print {s : State} {w : Word} {S : ValueStack} {v : Value} (hf : s.fault = none) (hh : s.halted = false)
    (hw : fetch s = some w) (htag : w.toNat / 4096 = 6) (hs : s.stack = S ++ [v]) :
    step s = .next (emit v (setStack S (advance s))) := by
  calc step s = runWord w s := step_of_fetch hf hh hw
    _ = exec .print (advance s) := runWord_of_decode (decode_eq_print_iff.2 htag) s
    _ = _ := exec_print_of_concat hs

/-- The port carries the last value of an output that has grown (R124). -/
theorem outPort_eq_some_iff {s : State} {v : Value} :
    outPort s = some v ↔ ∃ t, step s = .next t ∧ s.out.length < t.out.length ∧ t.out.getLast? = some v := by
  cases h : step s <;> simp [outPort, h]

/-- Settles O43: the output grows in a step only when the step executes a `Print` (`print_of_step_out_ne`), and then by the value
popped (`step_print_appends`); `step_of_print` is the converse. -/
theorem outPortCarriesPrintedValue : Obligations.OutPortCarriesPrintedValue := by
  intro s v
  rw [outPort_eq_some_iff]
  constructor
  · rintro ⟨t, hstep, hlt, hlast⟩
    obtain ⟨hh, w, hw, htag⟩ := print_of_step_out_ne hstep fun heq => hlt.ne' (congrArg List.length heq)
    obtain ⟨S, u, hs, hout⟩ := step_print_appends hstep hh hw htag
    obtain rfl : u = v := by simpa [hout] using hlast
    exact ⟨(step_eq_next hstep).1, hh, by simp [hs], w, hw, htag⟩
  · rintro ⟨hf, hh, hlast, w, hw, htag⟩
    obtain ⟨S, hs⟩ := List.getLast?_eq_some_iff.1 hlast
    exact ⟨_, step_of_print hf hh hw htag hs, by simp, by simp⟩

/-- Settles O41: `Print` appends the popped value (`exec_print_of_concat`), and the text is a plain concatenation. -/
theorem printExtendsTheText : Obligations.PrintExtendsTheText := by
  intro s S v hs
  exact ⟨emit v (setStack S s), exec_print_of_concat hs, by simp [textOf]⟩

/-! ### The caller's loop -/

/-- From a Halted engine steps lead nowhere else (R81). -/
theorem stepsTo_eq_of_halted {s t : State} {k : Nat} (hh : s.halted = true) (h : StepsTo k s t) : t = s := by
  induction k with
  | zero => exact Eq.symm h
  | succ k ih =>
    obtain ⟨u, hstep, hrest⟩ := h
    obtain rfl : u = s := step_next_eq_of_halted hstep hh
    exact ih hrest

theorem run_zero_of_running {s : State} (hh : s.halted = false) : run 0 s = .outOfFuel s := by
  simp [run, hh]

/-- One turn of `run()` on a Running engine (R86): it goes on from the next state. -/
theorem run_succ_of_next {s u : State} (hh : s.halted = false) (h : step s = .next u) (n : Nat) : run (n + 1) s = run n u := by
  simp [run, hh, h]

theorem run_succ_of_fault {s : State} {f : Fault} (hh : s.halted = false) (h : step s = .fault f) (n : Nat) :
    run (n + 1) s = .fault f := by
  simp [run, hh, h]

theorem run_succ_of_refused {s : State} {r : Refusal} (hh : s.halted = false) (h : step s = .refused r) (n : Nat) :
    run (n + 1) s = .refused r := by
  simp [run, hh, h]

/-- Settles O19: the precondition of a step fails (`step_of_faulted`), and `run()` passes the refusal on. -/
theorem faultedEngineHasNoTransition : Obligations.FaultedEngineHasNoTransition := by
  intro s k hf
  have hstep : step s = .refused .engineFaulted := step_of_faulted hf
  exact ⟨hstep, fun n hh => run_succ_of_refused hh hstep n⟩

/-- The first of the steps that lead to `t`, split off. -/
theorem exists_stepsTo_succ_iff {n : Nat} {s t : State} :
    (∃ k ≤ n + 1, StepsTo k s t) ↔ s = t ∨ ∃ u, step s = .next u ∧ ∃ k ≤ n, StepsTo k u t := by
  simp only [← Nat.lt_succ_iff, Nat.succ_eq_add_one, Nat.exists_lt_succ_left, StepsTo]
  grind

/-- Within `n` steps of `s` a step faults with `f`. -/
def FaultsWithin (n : Nat) (s : State) (f : Fault) : Prop := ∃ k < n, ∃ u, StepsTo k s u ∧ step u = .fault f

theorem faultsWithin_succ_iff {n : Nat} {s : State} {f : Fault} :
    FaultsWithin (n + 1) s f ↔ step s = .fault f ∨ ∃ u, step s = .next u ∧ FaultsWithin n u f := by
  simp only [FaultsWithin, Nat.exists_lt_succ_left, StepsTo]
  grind

/-- From a Halted engine no fault is reached (R81). -/
theorem not_faultsWithin_of_halted {n : Nat} {s : State} {f : Fault} (hh : s.halted = true) : ¬ FaultsWithin n s f := by
  rintro ⟨k, -, u, hsteps, hf⟩
  obtain rfl : u = s := stepsTo_eq_of_halted hh hsteps
  obtain ⟨-, hrun, -⟩ := step_eq_fault hf
  exact Bool.false_ne_true (hrun.symm.trans hh)

theorem run_eq_halted_iff (n : Nat) (s t : State) :
    run n s = .halted t ↔ t.halted = true ∧ ∃ k ≤ n, StepsTo k s t := by
  cases hh : s.halted with
  | true =>
    rw [run_of_halted hh, RunResult.halted.injEq]
    constructor
    · rintro rfl
      exact ⟨hh, 0, Nat.zero_le n, rfl⟩
    · rintro ⟨-, k, -, hk⟩
      exact (stepsTo_eq_of_halted hh hk).symm
  | false =>
    have hne : t.halted = true → s ≠ t := by
      rintro ht rfl
      exact Bool.false_ne_true (hh.symm.trans ht)
    cases n with
    | zero => simpa [run_zero_of_running hh, StepsTo] using hne
    | succ n =>
      rw [exists_stepsTo_succ_iff]
      cases h : step s with
      | next u =>
        rw [run_succ_of_next hh h, run_eq_halted_iff n u t]
        simp +contextual [hne]
      | fault f =>
        rw [run_succ_of_fault hh h]
        simpa using hne
      | refused r =>
        rw [run_succ_of_refused hh h]
        simpa using hne

theorem run_eq_fault_iff (n : Nat) (s : State) (f : Fault) :
    run n s = .fault f ↔ s.halted = false ∧ FaultsWithin n s f := by
  cases hh : s.halted with
  | true => simp [run_of_halted hh]
  | false =>
    cases n with
    | zero => simp [run_zero_of_running hh, FaultsWithin]
    | succ n =>
      rw [faultsWithin_succ_iff]
      cases h : step s with
      | next u =>
        rw [run_succ_of_next hh h, run_eq_fault_iff n u f]
        have hrunning : FaultsWithin n u f → u.halted = false := fun hf =>
          Bool.eq_false_iff.2 fun hu => not_faultsWithin_of_halted hu hf
        simpa using hrunning
      | fault g => simp [run_succ_of_fault hh h]
      | refused r => simp [run_succ_of_refused hh h]

/-- Settles O29: both ends of `run()` by recursion on the fuel, one turn being one step (`run_succ_of_next`). -/
theorem runIsRepeatedStep : Obligations.RunIsRepeatedStep := fun n s =>
  ⟨run_eq_halted_iff n s, run_eq_fault_iff n s⟩

end Sys2Proof.Machine

/-! Program memory is read at `pc` and nowhere else (spec/20_memory.md R31, R32). -/

namespace Sys2Proof.Machine

/-- The engine with the program `P` in the place of its own. -/
def withProgram (P : List Word) (s : State) : State := { s with program := P }

/-- The second result is the first one with the program `P`: in the next state, or with the same report of a fault (the rest of a
faulted engine is a free value, R131). -/
def ProgramReplaced (P : List Word) : Result → Result → Prop
  | .next t, r => r = .next (withProgram P t)
  | .fault f, r => ∃ g, r = .fault g ∧ faultReport g = faultReport f
  | .refused q, r => r = .refused q

/-- The meaning `m` does not read the program. -/
def ProgramBlind (m : State → Result) : Prop := ∀ (P : List Word) (s : State), ProgramReplaced P (m s) (m (withProgram P s))

theorem programBlind_raise (k : FaultKind) : ProgramBlind (raise k) := fun P s =>
  ⟨faultReason k (latchFault k (withProgram P s)), rfl, by simp [withProgram]⟩

theorem programBlind_pushValue (v : Value) : ProgramBlind (pushValue v) := by
  intro P s
  by_cases hfull : s.stack.length = 256
  · rw [pushValue_of_full hfull, pushValue_of_full (s := withProgram P s) hfull]
    exact programBlind_raise .stackOverflow P s
  · rw [pushValue_of_ne_full hfull, pushValue_of_ne_full (s := withProgram P s) hfull]
    rfl

/-- Popping does not read the program, so popping first keeps a meaning blind. -/
theorem programBlind_popThen {k : Value → State → Result} (hk : ∀ v, ProgramBlind (k v)) :
    ProgramBlind fun s => popThen s k := by
  intro P s
  dsimp only
  rcases stack_cases s.stack with hs | ⟨S, v, hs⟩
  · rw [popThen_of_empty hs, popThen_of_empty (s := withProgram P s) hs]
    exact programBlind_raise .stackUnderflow P s
  · rw [popThen_of_concat hs, popThen_of_concat (s := withProgram P s) hs]
    exact hk v P (setStack S s)

theorem programBlind_arith (op : AluOp) : ProgramBlind (arith op) :=
  programBlind_popThen fun a => programBlind_popThen fun b => programBlind_pushValue (alu op a b)

/-- No instruction reads program memory: the fetch is the only reader (R31). -/
theorem programBlind_exec (i : Instr) : ProgramBlind (exec i) := by
  cases i with
  | pushConst v => exact programBlind_pushValue (immediate v)
  | pop => exact programBlind_popThen fun _ _ _ => rfl
  | add | sub | mul => exact programBlind_arith _
  | jumpIfZero t =>
    unfold exec execJumpIfZero
    refine programBlind_popThen fun v P s => ?_
    split <;> rfl
  | print =>
    unfold exec execPrint
    exact programBlind_popThen fun _ _ _ => rfl
  | halt => exact fun _ _ => rfl
  | invalid tag => exact programBlind_raise (.invalidOpcode tag)

theorem programBlind_runWord (w : Word) : ProgramBlind (runWord w) := by
  intro P s
  unfold runWord
  split
  · next i _ => exact programBlind_exec i P (advance s)
  · exact programBlind_exec (.invalid (tagOf w)) P s

/-- With a program that agrees at `pc` the fetch finds the same word, and the rest of a step does not read the program. -/
theorem step_programReplaced {s : State} {P : List Word} {r : Result} (hP : P[s.pc]? = s.program[s.pc]?) (h : step s = r) :
    ProgramReplaced P r (step (withProgram P s)) := by
  subst h
  have hfetch : fetch (withProgram P s) = fetch s := hP
  cases hf : s.fault with
  | some k =>
    rw [step_of_faulted hf, step_of_faulted (s := withProgram P s) hf]
    rfl
  | none =>
    cases hh : s.halted with
    | true =>
      rw [step_of_halted hf hh, step_of_halted (s := withProgram P s) hf hh]
      rfl
    | false =>
      cases hw : fetch s with
      | none =>
        rw [step_of_fetch_none hf hh hw, step_of_fetch_none (s := withProgram P s) hf hh (hfetch.trans hw)]
        rfl
      | some w =>
        rw [step_of_fetch hf hh hw, step_of_fetch (s := withProgram P s) hf hh (hfetch.trans hw)]
        exact programBlind_runWord w P s

/-- Settles O24: `step_programReplaced` at each of the three outcomes. -/
theorem stepReadsOnlyTheFetchedWord : Obligations.StepReadsOnlyTheFetchedWord := fun _ _ hP =>
  ⟨fun _ => step_programReplaced hP, fun _ => step_programReplaced hP, fun _ => step_programReplaced hP⟩

end Sys2Proof.Machine

/-! Arithmetic on the unsigned readings (spec/44_arithmetic.md R104): `alu` is the ring operation of bit patterns. -/

namespace Sys2Proof.Machine

theorem alu_add_eq (a b : Value) : alu .add a b = a + b := by
  simp [alu, wrap32, aluExact, BitVec.ofInt_add]

theorem alu_sub_eq (a b : Value) : alu .sub a b = b - a := by
  simp [alu, wrap32, aluExact, Int.sub_eq_add_neg, BitVec.ofInt_add, BitVec.ofInt_neg, BitVec.sub_eq_add_neg]

theorem alu_mul_eq (a b : Value) : alu .mul a b = a * b := by
  simp [alu, wrap32, aluExact, BitVec.ofInt_mul]

/-- Settles O10: signed or unsigned, the result is the sum, difference or product of bit patterns (`alu_add_eq`, `alu_sub_eq`,
`alu_mul_eq`), which Lean defines on the unsigned readings. -/
theorem arithmeticIsSignAgnostic : Obligations.ArithmeticIsSignAgnostic := by
  intro s S b a hs hcap
  have hadd : alu .add a b = BitVec.ofNat 32 (a.toNat + b.toNat) := (alu_add_eq a b).trans (BitVec.add_def a b)
  have hsub : alu .sub a b = BitVec.ofNat 32 (b.toNat + (4294967296 - a.toNat)) := by
    rw [alu_sub_eq, BitVec.sub_def, Nat.add_comm]
  have hmul : alu .mul a b = BitVec.ofNat 32 (a.toNat * b.toNat) := (alu_mul_eq a b).trans (BitVec.mul_def ..)
  rw [← hadd, ← hsub, ← hmul]
  exact ⟨arith_of_concat (op := .add) hs hcap, arith_of_concat (op := .sub) hs hcap, arith_of_concat (op := .mul) hs hcap⟩

end Sys2Proof.Machine

/-! Canonical words and the codec's ports (spec/40_codec.md R52, R62, R66, R69). -/

namespace Sys2Proof.Machine

/-! ### Canonical words -/

/-- A word is a given one exactly if its tag and payload are (R45). -/
theorem wordOf_eq_iff {t : Tag} {p : Payload} {w : Word} : wordOf t p = w ↔ t = tagOf w ∧ p = payloadOf w := by
  constructor
  · rintro rfl
    simp
  · rintro ⟨rfl, rfl⟩
    exact wordOf_tagOf_payloadOf w

/-- The canonical form of a word: itself for the tags 0 and 5, and for the others the word of its tag with payload zero (R66). -/
def canonicalForm (w : Word) : Word :=
  if w.toNat / 4096 = 0 ∨ w.toNat / 4096 = 5 then w else wordOf (tagOf w) 0#12

/-- Re-encoding what a word decodes to gives its canonical form (R66's table). -/
theorem encode_of_decode {w : Word} {i : Instr} (h : decode w = .ok i) : encode i = some (canonicalForm w) := by
  rw [canonicalForm, ← tagOf_toNat]
  rcases decode_cases w with ⟨ht, e⟩ | ⟨ht, e⟩ | ⟨ht, e⟩ | ⟨ht, e⟩ | ⟨ht, e⟩ | ⟨ht, e⟩ | ⟨ht, e⟩ | ⟨ht, e⟩ | ⟨ht, e⟩ <;>
    rw [e] at h <;> cases h <;> simp [encode, ht, wordOf_eq_iff]

/-- Clearing the payload bits keeps the tag. -/
theorem wordOf_tagOf_zero (w : Word) : wordOf (tagOf w) 0#12 = w &&& 0xF000#16 := by
  rw [wordOf_eq_iff]
  constructor
  · rw [tagOf, tagOf, BitVec.extractLsb'_and]
    exact BitVec.and_allOnes.symm
  · rw [payloadOf, BitVec.extractLsb'_and]
    exact BitVec.and_zero.symm

/-- Settles O34: `encode_of_decode` gives the word and `decode_of_encode` reads it back, which also makes `encode` injective. -/
theorem reencodingClearsIgnoredPayload : Obligations.ReencodingClearsIgnoredPayload := by
  refine ⟨fun w w' i hdec henc => ?_, fun i j w hi hj => ?_⟩
  · have hform : w' = canonicalForm w := Option.some.inj (henc.symm.trans (encode_of_decode hdec))
    refine ⟨decode_of_encode henc, fun htag => ?_, fun ⟨h0, h5⟩ => ?_⟩
    · rw [hform, canonicalForm, if_pos htag]
    · rw [hform, canonicalForm, if_neg (not_or.2 ⟨h0, h5⟩), wordOf_tagOf_zero]
  · exact Except.ok.inj ((decode_of_encode hi).symm.trans (decode_of_encode hj))

theorem decode_isOk_iff (w : Word) : (∃ i, decode w = .ok i) ↔ w.toNat < 0x8000 := by
  rw [← not_le, ← tagOf_invalid_iff]
  cases h : decode w with
  | ok i =>
    have hvalid : ¬ 8 ≤ (tagOf w).toNat := fun ht => nomatch h.symm.trans (decode_eq_error_iff.2 ⟨ht, rfl⟩)
    simpa using hvalid
  | error k => simpa using (decode_eq_error_iff.1 h).1

/-- A word is canonical exactly if it decodes and is its own canonical form. -/
theorem isCanonical_iff (w : Word) : isCanonical w = true ↔ w.toNat < 0x8000 ∧ canonicalForm w = w := by
  rw [← decode_isOk_iff, isCanonical]
  cases h : decode w with
  | ok i => simp [encode_of_decode h]
  | error k => simp

/-- Settles O35: the canonical form is the word itself for tags 0 and 5, and otherwise for payload zero. -/
theorem canonicalWordsCharacterised : Obligations.CanonicalWordsCharacterised := by
  intro w
  have hpayload : 0#12 = payloadOf w ↔ w.toNat % 4096 = 0 := by
    rw [← payloadOf_toNat, BitVec.toNat_eq, eq_comm]
    rfl
  rw [isCanonical_iff, canonicalForm]
  split
  · next htag =>
    simp only [and_true]
    omega
  · next htag =>
    rw [wordOf_eq_iff, hpayload]
    simp only [true_and]
    omega

/-- Settles O31: the ten words, evaluated. -/
theorem sampleWordsDecode : Obligations.SampleWordsDecode :=
  ⟨rfl, rfl, rfl, rfl, rfl, rfl, rfl, rfl, rfl, rfl⟩

/-! ### The codec's ports -/

/-- `dec_valid` is set exactly if the word decodes (R69). -/
theorem decValid_iff (w : Word) : (decoderPorts w).decValid = true ↔ ∃ i, decode w = .ok i := by
  have hbit : 8 ≤ (tagOf w).toNat ↔ w.getLsbD 15 = true := tagOf_invalid_iff_getLsbD w
  rw [decode_isOk_iff, ← not_le, ← tagOf_invalid_iff, hbit]
  simp [decoderPorts]

/-- The variant index `w[14:12]` is the tag without its top bit (R62). -/
theorem extractLsb'_var_eq (w : Word) : w.extractLsb' 12 3 = (tagOf w).setWidth 3 := by
  ext i hi
  simp [tagOf]
  omega

/-- The decoder's outputs on a word that decodes are the bits of its instruction value (R62, R69). -/
theorem decoderPorts_of_decode {w : Word} {i : Instr} (h : decode w = .ok i) :
    ∃ b, variantBits i = some b ∧ (decoderPorts w).decVar = some b.var ∧ (decoderPorts w).decPl = some b.pl := by
  have hvalid : w.getLsbD 15 = false := by simpa [decoderPorts] using (decValid_iff w).2 ⟨i, h⟩
  simp only [decoderPorts, hvalid, extractLsb'_var_eq]
  rcases decode_cases w with ⟨ht, e⟩ | ⟨ht, e⟩ | ⟨ht, e⟩ | ⟨ht, e⟩ | ⟨ht, e⟩ | ⟨ht, e⟩ | ⟨ht, e⟩ | ⟨ht, e⟩ | ⟨ht, e⟩ <;>
    rw [e] at h <;> cases h <;> rw [ht] <;> exact ⟨_, rfl, rfl, rfl⟩

/-- The encoder's output on an instruction's variant index is its canonical word; a payload-less variant ignores what is offered. -/
theorem encode_eq_encoderPort {i : Instr} {b : VariantBits} {n : Nat} {offered : BitVec n} (h : variantBits i = some b)
    (hpl : b.var = 0#3 ∨ b.var = 5#3 → offered.setWidth 12 = b.pl) : encode i = some (encoderPort b.var offered) := by
  cases i with
  | pushConst p | jumpIfZero p =>
    cases h
    simp [encode, encoderPort, carriesPayload, hpl]
  | pop | add | sub | mul | print | halt =>
    cases h
    rfl
  | invalid tag => cases h

/-- Settles O38: `decValid_iff`, `decoderPorts_of_decode` and `encode_eq_encoderPort`, whatever the width offered. -/
theorem codecPortsAgree : Obligations.CodecPortsAgree :=
  ⟨fun w => ⟨rfl, decValid_iff w⟩, fun _ _ => decoderPorts_of_decode, fun _ _ _ _ h _ => encode_eq_encoderPort h⟩

end Sys2Proof.Machine

/-! The value stack as a last-in-first-out store (spec/41_value_stack.md R75). -/

namespace Sys2Proof.Machine

theorem pushAll_of_le {vs : List Value} {S : ValueStack} (h : S.length + vs.length ≤ 256) :
    pushAll vs S = .ok (S ++ vs) := by
  induction vs generalizing S with
  | nil => simp [pushAll]
  | cons v vs ih =>
    rw [List.length_cons] at h
    have hrest : (S ++ [v]).length + vs.length ≤ 256 := by simp; omega
    simp [pushAll, push_of_ne_full (show S.length ≠ 256 by omega), ih hrest]

/-- Pushing more than fits fails at the first value that finds the stack full (R70). -/
theorem pushAll_of_gt {vs : List Value} {S : ValueStack} (hcap : S.length ≤ 256) (h : 256 < S.length + vs.length) :
    pushAll vs S = .error .stackOverflow := by
  induction vs generalizing S with
  | nil => simp at h; omega
  | cons v vs ih =>
    rw [List.length_cons] at h
    rcases push_cases v S with ⟨-, hpush⟩ | ⟨hne, hpush⟩
    · simp [pushAll, hpush]
    · simp only [pushAll, hpush]
      exact ih (by simp; omega) (by simp; omega)

/-- Popping as many values as lie on top of `S` returns them in reverse order. -/
theorem popMany_append (vs : List Value) (S : ValueStack) : popMany vs.length (S ++ vs) = .ok (vs.reverse, S) := by
  induction vs using List.reverseRecOn with
  | nil => simp [popMany]
  | append_singleton vs v ih => simp [popMany, ← List.append_assoc, ih]

/-- Popping more values than there are fails (R71). -/
theorem popMany_of_lt {n : Nat} {S : ValueStack} (h : S.length < n) : popMany n S = .error .stackUnderflow := by
  induction n generalizing S with
  | zero => omega
  | succ n ih =>
    rcases stack_cases S with rfl | ⟨T, v, rfl⟩
    · simp [popMany]
    · have hT : T.length < n := by simpa using h
      simp [popMany, ih hT]

/-- Settles O40: the pushes by induction on the list (`pushAll_of_le`, `pushAll_of_gt`), the pops on the list read from its end
(`popMany_append`) and on their number (`popMany_of_lt`). -/
theorem stackIsLastInFirstOut : Obligations.StackIsLastInFirstOut :=
  ⟨fun vs S h => ⟨pushAll_of_le h, popMany_append vs S⟩, fun _ _ => pushAll_of_gt, fun _ _ => popMany_of_lt⟩

end Sys2Proof.Machine

/-! Printed numbers (spec/46_output.md R122, spec/30_encoding.md R57): decimal digits without leading zeros that read back, and the
printed words. -/

namespace Sys2Proof.Machine

/-! ### Decimal text -/

/-- `ds` is the decimal text of `n`: at least one digit, no leading zeros, reading back as `n` (R122). -/
structure IsDecimalText (n : Nat) (ds : List Char) : Prop where
  value : digitsValue ds = n
  digits : ∀ c ∈ ds, '0' ≤ c ∧ c ≤ '9'
  ne_nil : ds ≠ []
  no_leading_zero : ds.head? = some '0' → ds = ['0']

theorem digitChar_spec : ∀ d < 10, (digitChar d).toNat = 48 + d ∧ '0' ≤ digitChar d ∧ digitChar d ≤ '9' := by
  decide

/-- Reading one digit more. -/
theorem digitsValue_concat_digitChar (ds : List Char) {d : Nat} (hd : d < 10) :
    digitsValue (ds ++ [digitChar d]) = 10 * digitsValue ds + d := by
  obtain ⟨hnat, -⟩ := digitChar_spec d hd
  rw [digitsValue, List.foldl_concat, hnat]
  simp [digitsValue]

theorem isDecimalText_singleton {d : Nat} (hd : d < 10) : IsDecimalText d [digitChar d] where
  value := by simpa [digitsValue] using digitsValue_concat_digitChar [] hd
  digits := by simpa using (digitChar_spec d hd).2
  ne_nil := List.cons_ne_nil _ _
  no_leading_zero h := by simpa using h

/-- A digit behind the text of a positive number: the leading digit stays, and it is no zero. -/
theorem IsDecimalText.concat {m d : Nat} {ds : List Char} (h : IsDecimalText m ds) (hm : 0 < m) (hd : d < 10) :
    IsDecimalText (10 * m + d) (ds ++ [digitChar d]) where
  value := by rw [digitsValue_concat_digitChar ds hd, h.value]
  digits := by
    intro c hc
    rcases List.mem_append.1 hc with hc | hc
    · exact h.digits c hc
    · rw [List.mem_singleton.1 hc]
      exact (digitChar_spec d hd).2
  ne_nil := by simp
  no_leading_zero hzero := by
    rw [List.head?_append_of_ne_nil _ h.ne_nil] at hzero
    have hm0 : m = 0 := by rw [← h.value, h.no_leading_zero hzero]; rfl
    omega

/-- The accumulator of `digitsOnto` is the text behind the digits. -/
theorem digitsOnto_eq_append (fuel n : Nat) (acc : List Char) : digitsOnto fuel n acc = digitsOnto fuel n [] ++ acc := by
  induction fuel generalizing n acc with
  | zero => rfl
  | succ fuel ih =>
    simp only [digitsOnto]
    split
    · rfl
    · rw [ih _ (_ :: acc), ih _ [_], List.append_assoc]
      rfl

theorem digitsOnto_succ_of_lt {fuel n : Nat} (hn : n < 10) : digitsOnto (fuel + 1) n [] = [digitChar n] := by
  simp [digitsOnto, hn]

theorem digitsOnto_succ_of_ge {fuel n : Nat} (hn : 10 ≤ n) :
    digitsOnto (fuel + 1) n [] = digitsOnto fuel (n / 10) [] ++ [digitChar (n % 10)] := by
  rw [digitsOnto, if_neg (not_lt.2 hn), digitsOnto_eq_append]

/-- With fuel for all its digits, `digitsOnto` writes the decimal text of a number. -/
theorem isDecimalText_digitsOnto {fuel n : Nat} (h : n < 10 ^ (fuel + 1)) : IsDecimalText n (digitsOnto (fuel + 1) n []) := by
  induction fuel generalizing n with
  | zero =>
    rw [digitsOnto_succ_of_lt h]
    exact isDecimalText_singleton h
  | succ fuel ih =>
    rcases Nat.lt_or_ge n 10 with hn | hn
    · rw [digitsOnto_succ_of_lt hn]
      exact isDecimalText_singleton hn
    · have hdiv : n / 10 < 10 ^ (fuel + 1) := Nat.div_lt_of_lt_mul (by rwa [← Nat.pow_succ'])
      have htext := (ih hdiv).concat (Nat.div_pos hn (by decide)) (Nat.mod_lt n (by decide))
      rw [Nat.div_add_mod] at htext
      rwa [digitsOnto_succ_of_ge hn]

theorem digitsOnto_length_le (fuel n : Nat) : (digitsOnto fuel n []).length ≤ fuel := by
  induction fuel generalizing n with
  | zero => exact le_rfl
  | succ fuel ih =>
    rcases Nat.lt_or_ge n 10 with hn | hn
    · simp [digitsOnto_succ_of_lt hn]
    · simpa [digitsOnto_succ_of_ge hn] using ih (n / 10)

theorem isDecimalText_decimalDigits {n : Nat} (h : n < 10 ^ 10) : IsDecimalText n (decimalDigits n) :=
  isDecimalText_digitsOnto h

/-- Settles O42: the magnitude of a 32-bit value has at most ten digits (`isDecimalText_decimalDigits`). -/
theorem decimalTextReadsBack : Obligations.DecimalTextReadsBack := by
  intro v
  have hmag : v.toInt.natAbs < 10 ^ 10 := by
    have hlow : -2147483648 ≤ v.toInt := BitVec.le_toInt v
    have hhigh : v.toInt < 2147483648 := BitVec.toInt_lt
    omega
  have htext : IsDecimalText _ _ := isDecimalText_decimalDigits hmag
  refine ⟨decimalDigits v.toInt.natAbs, ?_, htext.value, htext.digits, List.length_pos_of_ne_nil htext.ne_nil,
    digitsOnto_length_le 10 _, htext.no_leading_zero⟩
  rw [decText]
  split <;> rfl

/-! ### Hexadecimal text -/

theorem hexDigit_spec : ∀ d < 16,
    (if hexDigit d ≤ '9' then (hexDigit d).toNat - 48 else (hexDigit d).toNat - 55) = d ∧
    (('0' ≤ hexDigit d ∧ hexDigit d ≤ '9') ∨ ('A' ≤ hexDigit d ∧ hexDigit d ≤ 'F')) := by
  decide

/-- The four digits of a word, as the numbers they write. -/
def nibbles (w : Word) : List Nat := [w.toNat / 4096, w.toNat / 256 % 16, w.toNat / 16 % 16, w.toNat % 16]

theorem hexWord_eq_map (w : Word) : hexWord w = (nibbles w).map hexDigit := rfl

theorem lt_of_mem_nibbles {w : Word} {d : Nat} (h : d ∈ nibbles w) : d < 16 := by
  have hw := w.isLt
  simp only [nibbles, List.mem_cons, List.not_mem_nil, or_false] at h
  omega

theorem hexValue_map_hexDigit {ds : List Nat} (h : ∀ d ∈ ds, d < 16) :
    hexValue (ds.map hexDigit) = ds.foldl (fun n d => 16 * n + d) 0 := by
  rw [hexValue, List.foldl_map]
  exact List.foldl_ext _ _ _ fun n d hd => by rw [(hexDigit_spec d (h d hd)).1]

/-- The hexadecimal digits of a word read back as it (R7). -/
theorem hexValue_hexWord (w : Word) : hexValue (hexWord w) = w.toNat := by
  rw [hexWord_eq_map, hexValue_map_hexDigit fun _ => lt_of_mem_nibbles]
  simp only [nibbles, List.foldl_cons, List.foldl_nil]
  omega

theorem hexWord_digits {w : Word} {c : Char} (h : c ∈ hexWord w) : ('0' ≤ c ∧ c ≤ '9') ∨ ('A' ≤ c ∧ c ≤ 'F') := by
  rw [hexWord_eq_map] at h
  obtain ⟨d, hd, rfl⟩ := List.mem_map.1 h
  exact (hexDigit_spec d (lt_of_mem_nibbles hd)).2

theorem hexWord_inj {w w' : Word} (h : hexWord w = hexWord w') : w = w' := by
  apply BitVec.eq_of_toNat_eq
  rw [← hexValue_hexWord w, h, hexValue_hexWord]

/-! ### Printed words -/

/-- The printed form of an instruction value (R55, R57); the row INVALID is no instruction value and prints nothing. -/
def instrText : Instr → List Char
  | .pushConst v => withPayload ['P', 'u', 's', 'h', 'C', 'o', 'n', 's', 't'] v
  | .pop => ['P', 'o', 'p']
  | .add => ['A', 'd', 'd']
  | .sub => ['S', 'u', 'b']
  | .mul => ['M', 'u', 'l']
  | .jumpIfZero t => withPayload ['J', 'u', 'm', 'p', 'I', 'f', 'Z', 'e', 'r', 'o'] t
  | .print => ['P', 'r', 'i', 'n', 't']
  | .halt => ['H', 'a', 'l', 't']
  | .invalid _ => []

/-- A word that decodes prints as its instruction value: what the decoder ignores is not printed. -/
theorem disassemble_of_decode {w : Word} {i : Instr} (h : decode w = .ok i) : disassemble w = instrText i := by
  cases i with
  | invalid tag => exact absurd (isVariant_of_decode h) Bool.false_ne_true
  | _ => simp [disassemble, h, instrText]

theorem disassemble_of_invalid {w : Word} (h : 0x8000 ≤ w.toNat) : disassemble w = '0' :: 'x' :: hexWord w := by
  have hdec : decode w = .error (.invalidOpcode (tagOf w)) := decode_eq_error_iff.2 ⟨(tagOf_invalid_iff w).2 h, rfl⟩
  simp [disassemble, hdec]

theorem isDecimalText_payload (p : Payload) : IsDecimalText p.toNat (decimalDigits p.toNat) :=
  isDecimalText_decimalDigits (p.isLt.trans (by decide))

/-- The payload printed behind a mnemonic of `n` characters, read back. -/
def readPayload (n : Nat) (text : List Char) : Payload := BitVec.ofNat 12 (digitsValue (text.drop (n + 1)).dropLast)

theorem readPayload_withPayload {n : Nat} {name : List Char} (hn : name.length = n) (p : Payload) :
    readPayload n (withPayload name p) = p := by
  have hdrop : (withPayload name p).drop (n + 1) = decimalDigits p.toNat ++ [')'] := by
    simp [withPayload, List.drop_append, hn]
  rw [readPayload, hdrop, List.dropLast_concat, (isDecimalText_payload p).value, BitVec.ofNat_toNat, BitVec.setWidth_eq]

/-- The instruction value a printed form stands for: its first characters tell the eight mnemonics apart. -/
def readInstr (text : List Char) : Instr :=
  match text with
  | 'A' :: _ => .add
  | 'S' :: _ => .sub
  | 'M' :: _ => .mul
  | 'H' :: _ => .halt
  | 'J' :: _ => .jumpIfZero (readPayload 10 text)
  | 'P' :: 'o' :: _ => .pop
  | 'P' :: 'r' :: _ => .print
  | _ => .pushConst (readPayload 9 text)

/-- Printing loses nothing: `readInstr` is a left inverse of `instrText` on the instruction values. -/
theorem readInstr_instrText {i : Instr} (h : i.isVariant = true) : readInstr (instrText i) = i := by
  cases i with
  | pushConst v => exact congrArg Instr.pushConst (readPayload_withPayload (by rfl) v)
  | jumpIfZero t => exact congrArg Instr.jumpIfZero (readPayload_withPayload (by rfl) t)
  | pop | add | sub | mul | print | halt => rfl
  | invalid tag => cases h

/-- Valid words print the same exactly when they decode the same. -/
theorem disassemble_eq_iff_of_valid {w w' : Word} (h : w.toNat < 0x8000) (h' : w'.toNat < 0x8000) :
    disassemble w = disassemble w' ↔ decode w = decode w' := by
  obtain ⟨i, hi⟩ := (decode_isOk_iff w).2 h
  obtain ⟨j, hj⟩ := (decode_isOk_iff w').2 h'
  rw [disassemble_of_decode hi, disassemble_of_decode hj, hi, hj, Except.ok.injEq]
  constructor
  · intro htext
    rw [← readInstr_instrText (isVariant_of_decode hi), htext, readInstr_instrText (isVariant_of_decode hj)]
  · exact congrArg instrText

theorem disassemble_eq_iff_of_invalid {w w' : Word} (h : 0x8000 ≤ w.toNat) (h' : 0x8000 ≤ w'.toNat) :
    disassemble w = disassemble w' ↔ w = w' := by
  rw [disassemble_of_invalid h, disassemble_of_invalid h']
  simp only [List.cons.injEq, true_and]
  exact ⟨hexWord_inj, congrArg hexWord⟩

/-- A word prints as the mnemonic and the payload's decimal text when its instruction value does (R57). -/
theorem disassemble_of_instrText_eq {w : Word} {i : Instr} {name : List Char} {p : Payload} (h : decode w = .ok i)
    (hi : instrText i = withPayload name p) :
    ∃ ds, disassemble w = name ++ '(' :: ds ++ [')'] ∧ IsDecimalText p.toNat ds :=
  ⟨decimalDigits p.toNat, (disassemble_of_decode h).trans hi, isDecimalText_payload p⟩

/-- Settles O37: each valid tag prints as its instruction value (`disassemble_of_decode`), from which it can be read back
(`readInstr_instrText`); an invalid word prints as hexadecimal digits that read back (`hexValue_hexWord`). -/
theorem disassemblyPrintsMnemonicAndPayload : Obligations.DisassemblyPrintsMnemonicAndPayload := by
  refine ⟨fun w => ?_, fun _ _ => disassemble_eq_iff_of_valid, fun w w' i hdec henc => ?_,
    fun _ _ => disassemble_eq_iff_of_invalid⟩
  · obtain ⟨h0, h1, h2, h3, h4, h5, h6, h7, -⟩ := decodeFollowsTheOpcodeMap w
    rw [ofNat_mod_eq_payloadOf] at h0 h5
    rw [← payloadOf_toNat]
    refine ⟨fun h => ?_, fun h => disassemble_of_decode (h1 h), fun h => disassemble_of_decode (h2 h),
      fun h => disassemble_of_decode (h3 h), fun h => disassemble_of_decode (h4 h), fun h => ?_,
      fun h => disassemble_of_decode (h6 h), fun h => disassemble_of_decode (h7 h),
      fun h => ⟨hexWord w, disassemble_of_invalid h, rfl, hexValue_hexWord w, fun c => hexWord_digits⟩⟩
    · obtain ⟨ds, htext, hds⟩ := disassemble_of_instrText_eq (h0 h) rfl
      exact ⟨ds, htext, hds.value, hds.digits, hds.ne_nil, hds.no_leading_zero⟩
    · obtain ⟨ds, htext, hds⟩ := disassemble_of_instrText_eq (h5 h) rfl
      exact ⟨ds, htext, hds.value, hds.digits, hds.ne_nil, hds.no_leading_zero⟩
  · rw [disassemble_of_decode hdec, disassemble_of_decode (decode_of_encode henc)]

end Sys2Proof.Machine
